-- ==== Sys2Proof/Word.lean ====
section
/-! DEFINITION. The machine's word types. Every value of this machine is unsigned (R8, R133), so they are plain
bit vectors. -/

namespace Sys2Proof

/-- An 8-bit value: a memory byte, a V register, a timer, the immediate `nn`. -/
abbrev Byte := BitVec 8

/-- A 16-bit value: an opcode, I, PC, a return address. -/
abbrev Word := BitVec 16

/-- The 12-bit address immediate `nnn` (R61). -/
abbrev Addr := BitVec 12

/-- One hexadecimal digit of an opcode (R8). -/
abbrev Nibble := BitVec 4

/-- The index of a V register: 0 is V0, 15 is VF (R11). -/
abbrev Reg := Fin 16

end Sys2Proof
end

