-- ==== Sys2Proof/Config.lean ====
section
/-! DEFINITION. The fixed sizes of R5 and the machine's one free value. -/

namespace Sys2Proof

/-- `MEM_SIZE` (R5): addresses 0x000 to 0xFFF. -/
abbrev Config.memSize : Nat := 4096

/-- `ENTRY` (R5): where a program starts. -/
abbrev Config.entry : Word := 0x200

/-- `ROM_MAX` (R5): the longest program image `load` accepts. -/
abbrev Config.romMax : Nat := 3584

/-- `STACK_DEPTH` (R5). -/
abbrev Config.stackDepth : Nat := 16

/-- `FB_W` (R5). -/
abbrev Config.fbWidth : Nat := 64

/-- `FB_H` (R5). -/
abbrev Config.fbHeight : Nat := 32

/-- The size of the font table, 16 glyphs of 5 bytes (R5). -/
abbrev Config.fontSize : Nat := 80

/-- The random byte of the n-th draw (R6, R132, D10). It has no body: "follows no law a proof may use". Each
execution of `Cxnn` reads it at `State.draws` and advances that counter, so that every draw is a fresh free value
(log 2). -/
opaque Config.rnd : Nat → Byte

end Sys2Proof
end

