-- ==== Sys2Proof/Machine/State.lean ====
section
/-! DEFINITION. The machine's state: the twelve items of R10, and the counter of the model's free value. -/

namespace Sys2Proof.Machine

/-- The five fatal causes of R211, the values the latch `FAULT` can hold beside None. In this model a step that meets
one answers a NEXT state in which the latch holds the cause (R214, log 3); neither `exec` nor `step` answers
`Host.Outcome.fault`. -/
inductive Fault where
  /-- Raised by `2nnn` when SP is 16 (R102). Safe: nothing is committed. -/
  | stackOverflow
  /-- Raised by `00EE` when SP is 0 (R100). Safe: nothing is committed. -/
  | stackUnderflow
  /-- Raised by the fetch when PC is 4095 (R84). Safe: the spec stops where the source is silent (D3). -/
  | fetchOutOfRange
  /-- Raised by `Dxyn`, `Fx33`, `Fx55` and `Fx65` when an address would exceed 4095 (R46). Safe: the spec stops where
  the source is silent (D4). -/
  | memOutOfRange
  /-- Raised by `Ex9E` and `ExA1` when Vx is above 15 (R170, R171). Safe: the spec stops where the source is silent
  (D5). -/
  | keyIndexOutOfRange
  deriving DecidableEq, Repr

/-- What the model gives no meaning to. -/
inductive Refusal where
  /-- An instruction with no meaning yet, by its mnemonic. Raised by an arm of `exec`; no arm raises it now. Safe. -/
  | notModelled (mnemonic : String)
  /-- A second accepted `load`, or a `load` after the first step: "a model refuses it (gives it no meaning)" (R192,
  D15). Raised by `Session.perform`, never by `exec` or `step`. Safe. -/
  | reload
  deriving DecidableEq, Repr

/-- The run state of R21. -/
inductive RunState where
  | running
  | paused
  | quit
  deriving DecidableEq, Repr

/-- The memory as a list of (address, byte) cells in one canonical form: addresses strictly rising and below 4096, and
no cell that holds what an unlisted address reads as (`Memory.wf`). -/
abbrev Memory := List Host.Cell

/-- The 64 by 32 cells of R19 as 32 rows of 64 one-bit cells. Column 0 is the most significant bit of its row, so that
a row written in binary reads left to right as the screen does (log 4). -/
abbrev Framebuffer := Vector (BitVec 64) 32

/-- The machine's state: R10's twelve items, and `draws`. -/
structure State where
  /-- `MEM` (R23). -/
  mem : Memory
  /-- `V[0..15]` (R11); `V[15]` is the flag register VF (R12). -/
  v : Vector Byte 16
  /-- `I` (R13). -/
  i : Word
  /-- `PC` (R14). -/
  pc : Word
  /-- `STACK[0..15]` (R15). -/
  stack : Vector Word 16
  /-- `SP` (R16), the number of return addresses on the stack, 0 to 16. -/
  sp : Fin 17
  /-- `DT` (R17). -/
  dt : Byte
  /-- `ST` (R18). -/
  st : Byte
  /-- `FB` (R19). -/
  fb : Framebuffer
  /-- `KEY[0..15]` (R20); true is pressed. -/
  key : Vector Bool 16
  /-- `RUN` (R21). -/
  run : RunState
  /-- `FAULT` (R22). -/
  fault : Option Fault
  /-- The model's own field, not the spec's: how many random bytes `Cxnn` has drawn (log 2). -/
  draws : Nat
  deriving DecidableEq, Repr

/-- The machine at creation (R30, R240) with the default font: every item zero but the font table, `PC`, `RUN` and
`FAULT`. Memory lists nothing, since an unlisted address reads as its creation value. -/
def State.reset : State where
  mem := []
  v := Vector.replicate 16 0
  i := 0
  pc := Config.entry
  stack := Vector.replicate 16 0
  sp := 0
  dt := 0
  st := 0
  fb := Vector.replicate 32 0
  key := Vector.replicate 16 false
  run := .running
  fault := none
  draws := 0

end Sys2Proof.Machine
end

