-- ==== Sys2Proof/Machine/Ops.lean ====
section
/-! DEFINITION. The named operations over memory, registers, stack, framebuffer, keypad and timers, and the entry into a
fatal condition. -/

namespace Sys2Proof.Machine

/-- What the execution of an instruction, and a step, answer. -/
abbrev Result := Host.Outcome State Fault Refusal

/-! ## Memory (R23, R40 to R50) -/

/-- What an address that no cell lists reads as: its value at creation, the font table below 0x050 and 0 elsewhere
(R30, R32). -/
def resetByte (a : Nat) : Byte :=
  if h : a < Config.fontSize then defaultFont[a] else 0

/-- `MemRead(a, 1)` (R8): the byte at an address. Callers check `a` against the end of memory first. -/
def Memory.byteAt : Memory → Nat → Byte
  | [], a => resetByte a
  | (k, b) :: m, a => if a = k then b else Memory.byteAt m a

/-- Puts a cell in front of the cells above it, unless it would hold what the address reads as anyway. -/
def Memory.consCell (a : Nat) (b : Byte) (m : Memory) : Memory :=
  if b = resetByte a then m else (a, b) :: m

/-- `MemWrite(a, 1, b)` (R8), keeping the canonical form. Callers check `a` against the end of memory first. -/
def Memory.setByte : Memory → Nat → Byte → Memory
  | [], a, b => Memory.consCell a b []
  | (k, c) :: m, a, b =>
    if a < k then Memory.consCell a b ((k, c) :: m)
    else if a = k then Memory.consCell a b m
    else (k, c) :: Memory.setByte m a b

/-- The addresses strictly rise from `lo` on, stay below 4096, and no cell holds what its address reads as anyway. -/
def Memory.wfFrom : Nat → Memory → Bool
  | _, [] => true
  | lo, (k, b) :: m =>
    decide (lo ≤ k) && decide (k < Config.memSize) && decide (b ≠ resetByte k) && Memory.wfFrom (k + 1) m

/-- The canonical form of memory. -/
def Memory.wf (m : Memory) : Bool := Memory.wfFrom 0 m

/-- Whether the `n` bytes from `a` on all exist: "if count > 0 and I + count - 1 > 4095 the instruction raises" (R46).
Addresses are unbounded integers, with no wrap. -/
def inMemory (a n : Nat) : Bool := decide (n = 0 ∨ a + n ≤ Config.memSize)

/-- `n` bytes at ascending addresses from `a`, or nothing at all when one of them does not exist (R43, R46, R146). -/
def Memory.load (m : Memory) (a n : Nat) : Option (List Byte) :=
  if inMemory a n then some ((List.range n).map fun k => m.byteAt (a + k)) else none

/-- Writes bytes at ascending addresses from `a`. -/
def Memory.setBytes : Memory → Nat → List Byte → Memory
  | m, _, [] => m
  | m, a, b :: bs => Memory.setBytes (m.setByte a b) (a + 1) bs

/-- Stores bytes at ascending addresses from `a`, or none of them when one address does not exist (R43, R46). -/
def Memory.store (m : Memory) (a : Nat) (bs : List Byte) : Option Memory :=
  if inMemory a bs.length then some (m.setBytes a bs) else none

/-! ## Registers (R11 to R14) -/

/-- `V[x]` (R8). -/
def State.reg (s : State) (x : Reg) : Byte := s.v.get x

/-- `V[x] <- b` (R8). No register is hardwired (R11). -/
def State.setReg (s : State) (x : Reg) (b : Byte) : State := { s with v := s.v.set x b }

/-- VF is the name of V[15] (R11, R12). -/
def regVF : Reg := 15

/-- `VF <- flag`, always 0 or 1 (R12). -/
def State.setFlag (s : State) (flag : Bool) : State := s.setReg regVF (if flag then 1 else 0)

/-- `I <- w` (R13). -/
def State.setI (s : State) (w : Word) : State := { s with i := w }

/-- `PC <- w` (R14). -/
def State.setPc (s : State) (w : Word) : State := { s with pc := w }

/-- The advance of the fetch (R84) and, applied to the advanced PC, a skip (R8): `PC <- PC + 2`. -/
def State.advancePc (s : State) : State := s.setPc (s.pc + 2)

/-- `skip` when the condition holds (R8, R104). -/
def State.skipIf (s : State) (cond : Bool) : State := if cond then s.advancePc else s

/-- The rewind of a key wait: `PC <- PC - 2` on the advanced PC (R175). -/
def State.rewindPc (s : State) : State := s.setPc (s.pc - 2)

/-! ## Call stack (R15, R16) -/

/-- `STACK[SP] <- w; SP <- SP + 1`, or nothing when SP is 16 (R15, R102). -/
def State.push (s : State) (w : Word) : Option State :=
  if h : s.sp.val < Config.stackDepth then
    some { s with stack := s.stack.set s.sp.val w h, sp := ⟨s.sp.val + 1, Nat.succ_lt_succ h⟩ }
  else none

/-- `SP <- SP - 1; STACK[SP]`, or nothing when SP is 0 (R15, R100). The popped slot keeps its value. -/
def State.pop (s : State) : Option (Word × State) :=
  match s.sp with
  | ⟨0, _⟩ => none
  | ⟨n + 1, h⟩ => some (s.stack.get ⟨n, Nat.lt_of_succ_lt_succ h⟩, { s with sp := ⟨n, Nat.lt_of_succ_lt h⟩ })

/-! ## Timers (R17, R18, R88) -/

/-- One timer's decrement: "if delay timer > 0, decrement by 1"; it stays at 0 (R88). -/
def tickDown (t : Byte) : Byte := if t = 0 then 0 else t - 1

/-- The timer tick at the end of a step (R88). -/
def State.timerTick (s : State) : State := { s with dt := tickDown s.dt, st := tickDown s.st }

/-! ## Framebuffer (R19) -/

/-- `FB[row * 64 + col]` (R19); nothing outside the grid is set. -/
def Framebuffer.cell (fb : Framebuffer) (col row : Nat) : Bool :=
  if h : row < Config.fbHeight then fb[row].getMsbD col else false

/-- The row word in which only column `col` is set. -/
def columnBit (col : Nat) : BitVec 64 := (0x8000000000000000#64) >>> col

/-- `FB[idx] <- FB[idx] xor 1` (R161) for a cell of the grid. -/
def Framebuffer.toggle (fb : Framebuffer) (col row : Nat) : Framebuffer :=
  if h : row < Config.fbHeight then fb.set row (fb[row] ^^^ columnBit col) h else fb

/-- The framebuffer with every cell unset (R160). -/
def Framebuffer.clear : Framebuffer := Vector.replicate 32 0

/-! ## Keypad (R20) -/

/-- `KEY[k]` (R20); there is no key above 15. -/
def State.keyDown (s : State) (k : Nat) : Bool := if h : k < 16 then s.key[k] else false

/-- The lowest pressed key: "scan keys 0–F in ascending order" (R175). -/
def State.lowestKey (s : State) : Option Nat := (List.range 16).find? fun k => s.keyDown k

/-! ## Random byte (R132) -/

/-- One draw: the free byte, and the state in which the next draw is another one (log 2). -/
def State.draw (s : State) : Byte × State := (Config.rnd s.draws, { s with draws := s.draws + 1 })

/-! ## Fatal conditions (R211, R214, R215)

There is no return from a fatal condition: "There is no return-from-trap instruction" (R215). -/

/-- Entry into a fatal condition: "The single change is `FAULT <- cause`" (R214). Nothing is saved, and control goes
nowhere. The step that runs the instruction discards everything else it has done so far (`commit`). -/
def State.raise (s : State) (c : Fault) : State := { s with fault := some c }

/-- The numeric code of a fatal cause, an identity only (R211). -/
def Fault.code : Fault → Nat
  | .stackOverflow => 1
  | .stackUnderflow => 2
  | .fetchOutOfRange => 3
  | .memOutOfRange => 4
  | .keyIndexOutOfRange => 5

end Sys2Proof.Machine
end

