-- ==== Sys2Proof/Machine/Flags.lean ====
section
/-! DEFINITION. The flag computations of R127 to R131 and R161. VF is written as a flag by six instructions, always to 0
or 1 (R12). -/

namespace Sys2Proof.Machine

/-- Carry out of bit 7: the exact sum exceeds 255 (R127). -/
def carryFlag (a b : Byte) : Bool := decide (a.toNat + b.toNat > 255)

/-- No borrow in `a - b`: the unsigned comparison `a >= b` (R128, R130). -/
def noBorrowFlag (a b : Byte) : Bool := decide (a.toNat ≥ b.toNat)

/-- The bit a right shift moves out, old bit 0 (R129). -/
def lowBitFlag (a : Byte) : Bool := a.getLsbD 0

/-- The bit a left shift moves out, old bit 7 (R131). -/
def highBitFlag (a : Byte) : Bool := a.getLsbD 7

/-- The two writes of a flag-writing ALU instruction, in the source's order: VF first, then `V[x]`, both computed
before either (R120, D2). With x = F the result is what stays. -/
def State.setFlagThenReg (s : State) (flag : Bool) (x : Reg) (b : Byte) : State := (s.setFlag flag).setReg x b

end Sys2Proof.Machine
end

