-- ==== Sys2Proof/Syntax.lean ====
section
/-! DEFINITION. The instruction set of R64, one constructor for each of its 34 rows. -/

namespace Sys2Proof

/-- An instruction with its operands (R61, R64). The docstring of each constructor gives the opcode pattern, which is
the unique name of the instruction (R70). -/
inductive Instr where
  /-- `00E0`, clear the framebuffer (R160). -/
  | cls
  /-- `00EE`, return (R100). -/
  | ret
  /-- `1nnn`, jump (R101). -/
  | jp (nnn : Addr)
  /-- `2nnn`, call (R102). -/
  | call (nnn : Addr)
  /-- `3xnn`, skip if Vx equals the immediate (R104). -/
  | seImm (x : Reg) (nn : Byte)
  /-- `4xnn`, skip if Vx differs from the immediate (R105). -/
  | sneImm (x : Reg) (nn : Byte)
  /-- `5xy0`, skip if Vx equals Vy (R106). -/
  | seReg (x y : Reg)
  /-- `6xnn`, load the immediate into Vx (R121). -/
  | ldImm (x : Reg) (nn : Byte)
  /-- `7xnn`, add the immediate to Vx without a flag (R122). -/
  | addImm (x : Reg) (nn : Byte)
  /-- `8xy0`, copy Vy into Vx (R123). -/
  | ldReg (x y : Reg)
  /-- `8xy1`, bitwise or (R124). -/
  | orReg (x y : Reg)
  /-- `8xy2`, bitwise and (R125). -/
  | andReg (x y : Reg)
  /-- `8xy3`, bitwise exclusive or (R126). -/
  | xorReg (x y : Reg)
  /-- `8xy4`, add with carry flag (R127). -/
  | addReg (x y : Reg)
  /-- `8xy5`, Vx minus Vy with no-borrow flag (R128). -/
  | subReg (x y : Reg)
  /-- `8xy6`, shift Vx right by one; the field y is ignored (R129, R68). -/
  | shr (x y : Reg)
  /-- `8xy7`, Vy minus Vx with no-borrow flag (R130). -/
  | subn (x y : Reg)
  /-- `8xyE`, shift Vx left by one; the field y is ignored (R131, R68). -/
  | shl (x y : Reg)
  /-- `9xy0`, skip if Vx differs from Vy (R107). -/
  | sneReg (x y : Reg)
  /-- `Annn`, load I (R140). -/
  | ldI (nnn : Addr)
  /-- `Bnnn`, jump to nnn plus V0 (R103). -/
  | jpV0 (nnn : Addr)
  /-- `Cxnn`, random byte and the mask nn (R132). -/
  | rnd (x : Reg) (nn : Byte)
  /-- `Dxyn`, draw n sprite rows (R161). The count n is a number; `Instr.wellFormed` keeps it to the field's 0 to 15. -/
  | drw (x y : Reg) (n : Nat)
  /-- `Ex9E`, skip if key Vx is pressed (R170). -/
  | skp (x : Reg)
  /-- `ExA1`, skip if key Vx is not pressed (R171). -/
  | sknp (x : Reg)
  /-- `Fx07`, read the delay timer (R172). -/
  | ldDT (x : Reg)
  /-- `Fx0A`, wait for a key (R175). -/
  | waitKey (x : Reg)
  /-- `Fx15`, set the delay timer (R173). -/
  | setDT (x : Reg)
  /-- `Fx18`, set the sound timer (R174). -/
  | setST (x : Reg)
  /-- `Fx1E`, add Vx to I (R141). -/
  | addI (x : Reg)
  /-- `Fx29`, point I at glyph Vx (R142). -/
  | ldFont (x : Reg)
  /-- `Fx33`, store the decimal digits of Vx (R143). -/
  | bcd (x : Reg)
  /-- `Fx55`, store V0 to Vx (R144). -/
  | storeRegs (x : Reg)
  /-- `Fx65`, load V0 to Vx (R145). -/
  | loadRegs (x : Reg)
  deriving DecidableEq, Repr

end Sys2Proof
end

