-- ==== Sys2Proof/WellFormed.lean ====
section
/-! DEFINITION. What makes an instruction term one that an opcode can hold. Register indices, addresses and bytes carry
their bound in their type; the row count of `Dxyn` is a plain number and is checked here. -/

namespace Sys2Proof

/-- An instruction whose operands fit their opcode fields: "`n` in `Dxyn` is a row count 0 to 15" (R63). -/
def Instr.wellFormed : Instr → Bool
  | .drw _ _ n => decide (n ≤ 15)
  | _ => true

end Sys2Proof
end

