-- ==== Sys2Proof/Decode.lean ====
section
/-! DEFINITION. Decoding (R60 to R68, R85) and, after it, encoding. Decoding is a total function of the 16 opcode bits
and reads no state. -/

namespace Sys2Proof

/-- The family selector `op[15:12]` (R61). -/
def fieldFam (op : Word) : Nibble := op.extractLsb' 12 4

/-- The register field `op[11:8]` (R61). -/
def fieldX (op : Word) : Nibble := op.extractLsb' 8 4

/-- The register field `op[7:4]` (R61). -/
def fieldY (op : Word) : Nibble := op.extractLsb' 4 4

/-- The 4-bit field `op[3:0]` (R61). -/
def fieldN (op : Word) : Nibble := op.extractLsb' 0 4

/-- The 8-bit field `op[7:0]` (R61). -/
def fieldNN (op : Word) : Byte := op.extractLsb' 0 8

/-- The 12-bit field `op[11:0]` (R61). -/
def fieldNNN (op : Word) : Addr := op.extractLsb' 0 12

/-- A register field names a V register (R61). -/
def regOf (d : Nibble) : Reg := d.toFin

/-- Two bytes at ascending addresses form an opcode, the lower address the more significant (R42). -/
def opcodeOf (hi lo : Byte) : Word := hi ++ lo

/-- What a 16-bit word is: an instruction, or an unrecognized opcode, named with its word (R66, R85). -/
inductive Decoded where
  | instr (i : Instr)
  | unrecognized (op : Word)
  deriving DecidableEq, Repr

/-- Family 0: the whole word decides (R65). -/
def decodeFam0 (op : Word) : Decoded :=
  if op = 0x00E0 then .instr .cls
  else if op = 0x00EE then .instr .ret
  else .unrecognized op

/-- Family 8: the nibble n decides (R65). The field y of `8xy6` and `8xyE` is kept and ignored (R68). -/
def decodeFam8 (op : Word) : Decoded :=
  let x := regOf (fieldX op)
  let y := regOf (fieldY op)
  let n := fieldN op
  if n = 0x0 then .instr (.ldReg x y)
  else if n = 0x1 then .instr (.orReg x y)
  else if n = 0x2 then .instr (.andReg x y)
  else if n = 0x3 then .instr (.xorReg x y)
  else if n = 0x4 then .instr (.addReg x y)
  else if n = 0x5 then .instr (.subReg x y)
  else if n = 0x6 then .instr (.shr x y)
  else if n = 0x7 then .instr (.subn x y)
  else if n = 0xE then .instr (.shl x y)
  else .unrecognized op

/-- Family E: the byte nn decides (R65). -/
def decodeFamE (op : Word) : Decoded :=
  let x := regOf (fieldX op)
  let nn := fieldNN op
  if nn = 0x9E then .instr (.skp x)
  else if nn = 0xA1 then .instr (.sknp x)
  else .unrecognized op

/-- Family F: the byte nn decides (R65). -/
def decodeFamF (op : Word) : Decoded :=
  let x := regOf (fieldX op)
  let nn := fieldNN op
  if nn = 0x07 then .instr (.ldDT x)
  else if nn = 0x0A then .instr (.waitKey x)
  else if nn = 0x15 then .instr (.setDT x)
  else if nn = 0x18 then .instr (.setST x)
  else if nn = 0x1E then .instr (.addI x)
  else if nn = 0x29 then .instr (.ldFont x)
  else if nn = 0x33 then .instr (.bcd x)
  else if nn = 0x55 then .instr (.storeRegs x)
  else if nn = 0x65 then .instr (.loadRegs x)
  else .unrecognized op

/-- The decoder: the family nibble, then what that family looks at (R64, R65). Literal nibbles are matched exactly
(R67). -/
def decode (op : Word) : Decoded :=
  let fam := fieldFam op
  let x := regOf (fieldX op)
  let y := regOf (fieldY op)
  if fam = 0x0 then decodeFam0 op
  else if fam = 0x1 then .instr (.jp (fieldNNN op))
  else if fam = 0x2 then .instr (.call (fieldNNN op))
  else if fam = 0x3 then .instr (.seImm x (fieldNN op))
  else if fam = 0x4 then .instr (.sneImm x (fieldNN op))
  else if fam = 0x5 then (if fieldN op = 0x0 then .instr (.seReg x y) else .unrecognized op)
  else if fam = 0x6 then .instr (.ldImm x (fieldNN op))
  else if fam = 0x7 then .instr (.addImm x (fieldNN op))
  else if fam = 0x8 then decodeFam8 op
  else if fam = 0x9 then (if fieldN op = 0x0 then .instr (.sneReg x y) else .unrecognized op)
  else if fam = 0xA then .instr (.ldI (fieldNNN op))
  else if fam = 0xB then .instr (.jpV0 (fieldNNN op))
  else if fam = 0xC then .instr (.rnd x (fieldNN op))
  else if fam = 0xD then .instr (.drw x y (fieldN op).toNat)
  else if fam = 0xE then decodeFamE op
  else decodeFamF op

/-- What a run of bytes begins with: an instruction, an unrecognized opcode, or fewer than the two bytes that an opcode
has (R60). -/
inductive DecodedBytes where
  | instr (i : Instr) (rest : List Byte)
  | unrecognized (op : Word) (rest : List Byte)
  | truncated
  deriving DecidableEq, Repr

/-- The decoder on bytes, total: the first two bytes form the opcode, big-endian (R42, R60). -/
def decodeBytes : List Byte → DecodedBytes
  | hi :: lo :: rest =>
    match decode (opcodeOf hi lo) with
    | .instr i => .instr i rest
    | .unrecognized op => .unrecognized op rest
  | _ => .truncated

/-- Four digits make an opcode, the first the most significant (R8). -/
def asm4 (a b c d : Nibble) : Word := a ++ b ++ c ++ d

/-- The register field that names a V register (R61). -/
def regBits (x : Reg) : Nibble := BitVec.ofFin x

/-- Format `XNN` (R62). -/
def asmXNN (fam : Nibble) (x : Reg) (nn : Byte) : Word := fam ++ regBits x ++ nn

/-- Format `NNN` (R62). -/
def asmNNN (fam : Nibble) (nnn : Addr) : Word := fam ++ nnn

/-- Format `XY` (R62), with the sub-opcode d. -/
def asmXY (fam : Nibble) (x y : Reg) (d : Nibble) : Word := asm4 fam (regBits x) (regBits y) d

/-- The opcode of an instruction, from the patterns of R64. -/
def encode : Instr → Word
  | .cls => 0x00E0
  | .ret => 0x00EE
  | .jp nnn => asmNNN 0x1 nnn
  | .call nnn => asmNNN 0x2 nnn
  | .seImm x nn => asmXNN 0x3 x nn
  | .sneImm x nn => asmXNN 0x4 x nn
  | .seReg x y => asmXY 0x5 x y 0x0
  | .ldImm x nn => asmXNN 0x6 x nn
  | .addImm x nn => asmXNN 0x7 x nn
  | .ldReg x y => asmXY 0x8 x y 0x0
  | .orReg x y => asmXY 0x8 x y 0x1
  | .andReg x y => asmXY 0x8 x y 0x2
  | .xorReg x y => asmXY 0x8 x y 0x3
  | .addReg x y => asmXY 0x8 x y 0x4
  | .subReg x y => asmXY 0x8 x y 0x5
  | .shr x y => asmXY 0x8 x y 0x6
  | .subn x y => asmXY 0x8 x y 0x7
  | .shl x y => asmXY 0x8 x y 0xE
  | .sneReg x y => asmXY 0x9 x y 0x0
  | .ldI nnn => asmNNN 0xA nnn
  | .jpV0 nnn => asmNNN 0xB nnn
  | .rnd x nn => asmXNN 0xC x nn
  | .drw x y n => asmXY 0xD x y (BitVec.ofNat 4 n)
  | .skp x => asmXNN 0xE x 0x9E
  | .sknp x => asmXNN 0xE x 0xA1
  | .ldDT x => asmXNN 0xF x 0x07
  | .waitKey x => asmXNN 0xF x 0x0A
  | .setDT x => asmXNN 0xF x 0x15
  | .setST x => asmXNN 0xF x 0x18
  | .addI x => asmXNN 0xF x 0x1E
  | .ldFont x => asmXNN 0xF x 0x29
  | .bcd x => asmXNN 0xF x 0x33
  | .storeRegs x => asmXNN 0xF x 0x55
  | .loadRegs x => asmXNN 0xF x 0x65

/-- The high byte of an opcode, the one at the lower address (R42). -/
def highByte (op : Word) : Byte := op.extractLsb' 8 8

/-- The low byte of an opcode, the one at the higher address (R42). -/
def lowByte (op : Word) : Byte := op.extractLsb' 0 8

/-- An instruction as it lies in memory (R42). -/
def encodeBytes (i : Instr) : List Byte := [highByte (encode i), lowByte (encode i)]

/-- The opcode whose low `nbits` bits are those of `w`, every higher bit 0. The opcode table numbers an opcode's bits
as R8 does: bit 0 is the least significant of the one 16-bit word. -/
def tableOpcode (nbits w : Nat) : Word := BitVec.ofNat 16 (w % 2 ^ nbits)

/-- The instruction the decoder reads from an opcode-table word laid out in memory as the machine stores it. -/
def decodeTableWord (nbits w : Nat) : Option Instr :=
  match decodeBytes [highByte (tableOpcode nbits w), lowByte (tableOpcode nbits w)] with
  | .instr i _ => some i
  | .unrecognized _ _ => none
  | .truncated => none

/-- The mask of the opcode-table row of an instruction (R64). -/
def Instr.mask : Instr → Word
  | .cls | .ret => 0xFFFF
  | .jp _ | .call _ | .ldI _ | .jpV0 _ => 0xF000
  | .seImm _ _ | .sneImm _ _ | .ldImm _ _ | .addImm _ _ | .rnd _ _ => 0xF000
  | .seReg _ _ | .sneReg _ _ | .ldReg _ _ | .orReg _ _ | .andReg _ _ | .xorReg _ _ | .addReg _ _ | .subReg _ _
  | .shr _ _ | .subn _ _ | .shl _ _ => 0xF00F
  | .drw _ _ _ => 0xF000
  | .skp _ | .sknp _ | .ldDT _ | .waitKey _ | .setDT _ | .setST _ | .addI _ | .ldFont _ | .bcd _
  | .storeRegs _ | .loadRegs _ => 0xF0FF

/-- The match column of the opcode-table row of an instruction (R64). -/
def Instr.pattern : Instr → Word
  | .cls => 0x00E0
  | .ret => 0x00EE
  | .jp _ => 0x1000
  | .call _ => 0x2000
  | .seImm _ _ => 0x3000
  | .sneImm _ _ => 0x4000
  | .seReg _ _ => 0x5000
  | .ldImm _ _ => 0x6000
  | .addImm _ _ => 0x7000
  | .ldReg _ _ => 0x8000
  | .orReg _ _ => 0x8001
  | .andReg _ _ => 0x8002
  | .xorReg _ _ => 0x8003
  | .addReg _ _ => 0x8004
  | .subReg _ _ => 0x8005
  | .shr _ _ => 0x8006
  | .subn _ _ => 0x8007
  | .shl _ _ => 0x800E
  | .sneReg _ _ => 0x9000
  | .ldI _ => 0xA000
  | .jpV0 _ => 0xB000
  | .rnd _ _ => 0xC000
  | .drw _ _ _ => 0xD000
  | .skp _ => 0xE09E
  | .sknp _ => 0xE0A1
  | .ldDT _ => 0xF007
  | .waitKey _ => 0xF00A
  | .setDT _ => 0xF015
  | .setST _ => 0xF018
  | .addI _ => 0xF01E
  | .ldFont _ => 0xF029
  | .bcd _ => 0xF033
  | .storeRegs _ => 0xF055
  | .loadRegs _ => 0xF065

/-- The mnemonic of R64's table, a label only (R70). -/
def Instr.mnemonic : Instr → String
  | .cls => "CLS"
  | .ret => "RET"
  | .jp _ => "JP nnn"
  | .call _ => "CALL nnn"
  | .seImm _ _ => "SE Vx, nn"
  | .sneImm _ _ => "SNE Vx, nn"
  | .seReg _ _ => "SE Vx, Vy"
  | .ldImm _ _ => "LD Vx, nn"
  | .addImm _ _ => "ADD Vx, nn"
  | .ldReg _ _ => "LD Vx, Vy"
  | .orReg _ _ => "OR Vx, Vy"
  | .andReg _ _ => "AND Vx, Vy"
  | .xorReg _ _ => "XOR Vx, Vy"
  | .addReg _ _ => "ADD Vx, Vy"
  | .subReg _ _ => "SUB Vx, Vy"
  | .shr _ _ => "SHR Vx"
  | .subn _ _ => "SUBN Vx, Vy"
  | .shl _ _ => "SHL Vx"
  | .sneReg _ _ => "SNE Vx, Vy"
  | .ldI _ => "LD I, nnn"
  | .jpV0 _ => "JP V0, nnn"
  | .rnd _ _ => "RND Vx, nn"
  | .drw _ _ _ => "DRW Vx, Vy, n"
  | .skp _ => "SKP Vx"
  | .sknp _ => "SKNP Vx"
  | .ldDT _ => "LD Vx, DT"
  | .waitKey _ => "LD Vx, K"
  | .setDT _ => "LD DT, Vx"
  | .setST _ => "LD ST, Vx"
  | .addI _ => "ADD I, Vx"
  | .ldFont _ => "LD F, Vx"
  | .bcd _ => "LD B, Vx"
  | .storeRegs _ => "LD [I], Vx"
  | .loadRegs _ => "LD Vx, [I]"

end Sys2Proof
end

