-- ==== Sys2Proof/Machine/Operands.lean ====
section
/-! DEFINITION. The operand forms of R63 and R146: zero-extended immediates and registers, the block V0 to Vx, the bytes
at I, and the decimal digits of a register. -/

namespace Sys2Proof.Machine

/-- `zext_16(nnn)` (R63). -/
def addrOperand (nnn : Addr) : Word := nnn.setWidth 16

/-- `zext_16(b)`: a register widened to the address width (R103, R141, R142). -/
def wideReg (b : Byte) : Word := b.setWidth 16

/-- The base address of every data access: I as an unbounded integer, with no wrap (R46, R146). -/
def State.base (s : State) : Nat := s.i.toNat

/-- V0 to Vx inclusive; x is the field value itself (R144). -/
def State.regBlock (s : State) (x : Reg) : List Byte := (List.range (x.val + 1)).map fun k => s.v.toList.getD k 0

/-- `V[i] <- bs[i]` for each byte of the list, the other registers unchanged (R145). -/
def State.setRegBlock (s : State) (bs : List Byte) : State :=
  { s with v := Vector.ofFn fun r : Fin 16 => bs.getD r.val (s.v.get r) }

/-- The hundreds, tens and ones digits of a byte, with floor division of natural numbers (R143). -/
def decimalDigits (b : Byte) : List Byte :=
  [BitVec.ofNat 8 (b.toNat / 100), BitVec.ofNat 8 (b.toNat / 10 % 10), BitVec.ofNat 8 (b.toNat % 10)]

/-- The address of glyph b: `zext_16(b) * 5`, the whole byte (R142). -/
def glyphAddress (b : Byte) : Word := wideReg b * 5

/-- The horizontal origin of a sprite, `V[x] mod 64` (R161). -/
def spriteCol (b : Byte) : Nat := b.toNat % Config.fbWidth

/-- The vertical origin of a sprite, `V[y] mod 32` (R161). -/
def spriteRow (b : Byte) : Nat := b.toNat % Config.fbHeight

end Sys2Proof.Machine
end

