-- ==== Sys2Proof/Machine/Alu.lean ====
section
/-! DEFINITION. Register load, 8-bit ALU and random (42_alu.md). Every source operand is read before any write (R120).
None of these instructions touches PC beyond the common advance. -/

namespace Sys2Proof.Machine

/-- `6xnn` (R121). -/
def execLdImm (x : Reg) (nn : Byte) (s : State) : Result := .next (s.setReg x nn)

/-- `7xnn` (R122): modulo 256, no flag. -/
def execAddImm (x : Reg) (nn : Byte) (s : State) : Result := .next (s.setReg x (s.reg x + nn))

/-- `8xy0` (R123). -/
def execLdReg (x y : Reg) (s : State) : Result := .next (s.setReg x (s.reg y))

/-- `8xy1` (R124): no flag. -/
def execOrReg (x y : Reg) (s : State) : Result := .next (s.setReg x (s.reg x ||| s.reg y))

/-- `8xy2` (R125): no flag. -/
def execAndReg (x y : Reg) (s : State) : Result := .next (s.setReg x (s.reg x &&& s.reg y))

/-- `8xy3` (R126): no flag. -/
def execXorReg (x y : Reg) (s : State) : Result := .next (s.setReg x (s.reg x ^^^ s.reg y))

/-- `8xy4` (R127). -/
def execAddReg (x y : Reg) (s : State) : Result :=
  let a := s.reg x
  let b := s.reg y
  .next (s.setFlagThenReg (carryFlag a b) x (a + b))

/-- `8xy5` (R128). -/
def execSubReg (x y : Reg) (s : State) : Result :=
  let a := s.reg x
  let b := s.reg y
  .next (s.setFlagThenReg (noBorrowFlag a b) x (a - b))

/-- `8xy6` (R129): logical shift of Vx; the field y is ignored (R68). -/
def execShr (x _y : Reg) (s : State) : Result :=
  let a := s.reg x
  .next (s.setFlagThenReg (lowBitFlag a) x (a >>> 1))

/-- `8xy7` (R130): Vy minus Vx. -/
def execSubn (x y : Reg) (s : State) : Result :=
  let a := s.reg x
  let b := s.reg y
  .next (s.setFlagThenReg (noBorrowFlag b a) x (b - a))

/-- `8xyE` (R131): shift of Vx; the field y is ignored (R68). -/
def execShl (x _y : Reg) (s : State) : Result :=
  let a := s.reg x
  .next (s.setFlagThenReg (highBitFlag a) x (a <<< 1))

/-- `Cxnn` (R132): one draw of the free byte, masked (log 2). -/
def execRnd (x : Reg) (nn : Byte) (s : State) : Result :=
  let (r, drawn) := s.draw
  .next (drawn.setReg x (r &&& nn))

end Sys2Proof.Machine
end

