-- ==== Sys2Proof/Machine/Display.lean ====
section
/-! DEFINITION. Framebuffer instructions (44_display.md): clear, and draw sprite with clipping and collision. -/

namespace Sys2Proof.Machine

/-- `00E0` (R160). -/
def execCls (s : State) : Result := .next { s with fb := Framebuffer.clear }

/-- A drawing in progress: the framebuffer, and whether some cell went from 1 to 0 (R161). -/
structure Drawing where
  fb : Framebuffer
  collision : Bool
  deriving DecidableEq, Repr

/-- One sprite pixel that is 1, at a column and row that may lie off the grid: dropped there, else it toggles its cell,
and reports a cell that was set (R161). -/
def drawPixel (col row : Nat) (d : Drawing) : Drawing :=
  if col ≤ 63 ∧ row ≤ 31 then
    { fb := Framebuffer.toggle d.fb col row, collision := d.collision || Framebuffer.cell d.fb col row }
  else d

/-- One sprite row: bit `7 - c` of the byte is the pixel at column `x0 + c` (R161, R162). -/
def drawRow (x0 row : Nat) (b : Byte) (d : Drawing) : Drawing :=
  (List.range 8).foldl (fun d c => if b.getLsbD (7 - c) then drawPixel (x0 + c) row d else d) d

/-- The sprite rows from screen row `row` downwards, one byte each (R161). -/
def drawRows (x0 : Nat) : Nat → List Byte → Drawing → Drawing
  | _, [], d => d
  | row, b :: bs, d => drawRows x0 (row + 1) bs (drawRow x0 row b d)

/-- `Dxyn` (R161): the origin is sampled first, all n rows must exist, and VF is written last. -/
def execDrw (x y : Reg) (n : Nat) (s : State) : Result :=
  match s.mem.load s.base n with
  | some sprite =>
    let d := drawRows (spriteCol (s.reg x)) (spriteRow (s.reg y)) sprite { fb := s.fb, collision := false }
    .next (State.setFlag { s with fb := d.fb } d.collision)
  | none => .next (s.raise .memOutOfRange)

end Sys2Proof.Machine
end

