-- ==== Sys2Proof/Machine/Flow.lean ====
section
/-! DEFINITION. Control transfer (41_flow.md). In every meaning PC is already advanced: it holds the address of the
following instruction (R84). -/

namespace Sys2Proof.Machine

/-- `00EE` (R100): pop the stack into PC; an empty stack is fatal. -/
def execRet (s : State) : Result :=
  match s.pop with
  | some (target, popped) => .next (popped.setPc target)
  | none => .next (s.raise .stackUnderflow)

/-- `1nnn` (R101): the target is absolute. -/
def execJp (nnn : Addr) (s : State) : Result := .next (s.setPc (addrOperand nnn))

/-- `2nnn` (R102): push the advanced PC; a full stack is fatal. -/
def execCall (nnn : Addr) (s : State) : Result :=
  match s.push s.pc with
  | some pushed => .next (pushed.setPc (addrOperand nnn))
  | none => .next (s.raise .stackOverflow)

/-- `Bnnn` (R103): always V0; the sum is not reduced modulo 4096. -/
def execJpV0 (nnn : Addr) (s : State) : Result := .next (s.setPc (addrOperand nnn + wideReg (s.reg 0)))

/-- `3xnn` (R104). -/
def execSeImm (x : Reg) (nn : Byte) (s : State) : Result := .next (s.skipIf (s.reg x == nn))

/-- `4xnn` (R105). -/
def execSneImm (x : Reg) (nn : Byte) (s : State) : Result := .next (s.skipIf (s.reg x != nn))

/-- `5xy0` (R106). -/
def execSeReg (x y : Reg) (s : State) : Result := .next (s.skipIf (s.reg x == s.reg y))

/-- `9xy0` (R107). -/
def execSneReg (x y : Reg) (s : State) : Result := .next (s.skipIf (s.reg x != s.reg y))

end Sys2Proof.Machine
end

