-- ==== Sys2Proof/Machine/Index.lean ====
section
/-! DEFINITION. The address register, and loads and stores through it (43_index_memory.md). I is never changed by an
access (R146). -/

namespace Sys2Proof.Machine

/-- `Annn` (R140). -/
def execLdI (nnn : Addr) (s : State) : Result := .next (s.setI (addrOperand nnn))

/-- `Fx1E` (R141): modulo 65536, no flag, no fault. -/
def execAddI (x : Reg) (s : State) : Result := .next (s.setI (s.i + wideReg (s.reg x)))

/-- `Fx29` (R142): the literal product, no masking of Vx (D14). -/
def execLdFont (x : Reg) (s : State) : Result := .next (s.setI (glyphAddress (s.reg x)))

/-- `Fx33` (R143): three digits at I, or `MemOutOfRange` with no byte written. -/
def execBcd (x : Reg) (s : State) : Result :=
  match s.mem.store s.base (decimalDigits (s.reg x)) with
  | some m => .next { s with mem := m }
  | none => .next (s.raise .memOutOfRange)

/-- `Fx55` (R144): V0 to Vx at I, or `MemOutOfRange` with no byte written. -/
def execStoreRegs (x : Reg) (s : State) : Result :=
  match s.mem.store s.base (s.regBlock x) with
  | some m => .next { s with mem := m }
  | none => .next (s.raise .memOutOfRange)

/-- `Fx65` (R145): x + 1 bytes at I into V0 to Vx, or `MemOutOfRange` with no register written. -/
def execLoadRegs (x : Reg) (s : State) : Result :=
  match s.mem.load s.base (x.val + 1) with
  | some bs => .next (s.setRegBlock bs)
  | none => .next (s.raise .memOutOfRange)

end Sys2Proof.Machine
end

