-- ==== Sys2Proof/Machine/Keypad.lean ====
section
/-! DEFINITION. Keypad and timer instructions (45_keypad_timers.md). The timer tick of the step comes after the
instruction (R176). -/

namespace Sys2Proof.Machine

/-- `Ex9E` (R170): Vx is not masked; a value above 15 is fatal. -/
def execSkp (x : Reg) (s : State) : Result :=
  let k := (s.reg x).toNat
  if k > 15 then .next (s.raise .keyIndexOutOfRange) else .next (s.skipIf (s.keyDown k))

/-- `ExA1` (R171): Vx is not masked; a value above 15 is fatal. -/
def execSknp (x : Reg) (s : State) : Result :=
  let k := (s.reg x).toNat
  if k > 15 then .next (s.raise .keyIndexOutOfRange) else .next (s.skipIf (!s.keyDown k))

/-- `Fx07` (R172). -/
def execLdDT (x : Reg) (s : State) : Result := .next (s.setReg x s.dt)

/-- `Fx0A` (R175): the lowest pressed key, or the rewind of PC that makes the next step fetch this instruction
again. -/
def execWaitKey (x : Reg) (s : State) : Result :=
  match s.lowestKey with
  | some k => .next (s.setReg x (BitVec.ofNat 8 k))
  | none => .next s.rewindPc

/-- `Fx15` (R173). -/
def execSetDT (x : Reg) (s : State) : Result := .next { s with dt := s.reg x }

/-- `Fx18` (R174). -/
def execSetST (x : Reg) (s : State) : Result := .next { s with st := s.reg x }

end Sys2Proof.Machine
end

