-- ==== Sys2Proof/Machine/Cycle.lean ====
section
/-! DEFINITION. The step of 40_step_cycle.md: gate, halted test, fetch, decode, execute, timer tick (R89), and the
outcome a step returns (R80). -/

namespace Sys2Proof.Machine

/-- The opcode at PC, big-endian, or nothing when its second byte would lie outside memory, at PC = 4095 (R42, R84). -/
def State.fetch (s : State) : Option Word :=
  match s.mem.load s.pc.toNat 2 with
  | some [hi, lo] => some (opcodeOf hi lo)
  | _ => none

/-- What a step will do, decided by the tests of R89 in their order (R217). -/
inductive Phase where
  /-- `FAULT` is set (R89 line 1). -/
  | latched (cause : Fault)
  /-- `RUN` is Paused or Quit (R89 line 2). -/
  | idle
  /-- PC is 4096 or above (R89 line 3). -/
  | halted
  /-- PC is 4095 (R89 line 4). -/
  | fetchFault
  /-- The word `op` fetched at `addr` is no instruction (R89 line 9). -/
  | unrecognized (addr op : Word)
  /-- The word fetched is the instruction `i` (R89 line 10). -/
  | execute (i : Instr)
  deriving DecidableEq, Repr

/-- The tests of R89, lines 1 to 9. -/
def phase (s : State) : Phase :=
  match s.fault with
  | some c => .latched c
  | none =>
    if s.run ≠ .running then .idle
    else if Config.memSize ≤ s.pc.toNat then .halted
    else
      match s.fetch with
      | none => .fetchFault
      | some op =>
        match decode op with
        | .unrecognized op => .unrecognized s.pc op
        | .instr i => .execute i

/-- The fatal condition that an execute phase has raised, if any (R86). -/
def raised : Result → Option Fault
  | .next t => t.fault
  | .fault c => some c
  | .refused _ => none

/-- The end of a step that began in `s` and whose execute phase answered `r`: the timer tick (R88); but "raise anywhere
inside discards every write made since line 1 (PC advance included), sets `FAULT`", and the timers do not tick (R89,
R214). -/
def commit (s : State) (r : Result) : Result :=
  match r with
  | .next t =>
    match t.fault with
    | none => .next t.timerTick
    | some c => .next (s.raise c)
  | .fault c => .fault c
  | .refused q => .refused q

/-- One step (R89). -/
def cycle (s : State) : Result :=
  match phase s with
  | .latched _ => .next s
  | .idle => .next s
  | .halted => .next s.timerTick
  | .fetchFault => .next (s.raise .fetchOutOfRange)
  | .unrecognized _ _ => .next s.advancePc.timerTick
  | .execute i => commit s (exec i s.advancePc)

/-- The outcome of a step (R80). It is an output, not state. -/
inductive StepOutcome where
  | ok
  | okUnrecognized (addr op : Word)
  | halted
  | idle
  | fatal (cause : Fault)
  deriving DecidableEq, Repr

/-- What the step from `s` returns (R80, R90). -/
def stepOutcome (s : State) : StepOutcome :=
  match phase s with
  | .latched c => .fatal c
  | .idle => .idle
  | .halted => .halted
  | .fetchFault => .fatal .fetchOutOfRange
  | .unrecognized addr op => .okUnrecognized addr op
  | .execute i =>
    match raised (exec i s.advancePc) with
    | none => .ok
    | some c => .fatal c

/-- Whether a step with this outcome ticks the timers (R90). -/
def StepOutcome.ticks : StepOutcome → Bool
  | .ok | .okUnrecognized _ _ | .halted => true
  | .idle | .fatal _ => false

/-- The value recorded with a latched cause (R211), which is derivable since PC has not advanced (R212): the address of
the instruction for causes 1 to 3, I for cause 4, `V[x]` for cause 5, x being the field of the opcode at PC. -/
def State.fatalInfo (s : State) : Option Nat :=
  match s.fault with
  | none => none
  | some .stackOverflow | some .stackUnderflow | some .fetchOutOfRange => some s.pc.toNat
  | some .memOutOfRange => some s.i.toNat
  | some .keyIndexOutOfRange =>
    match s.fetch with
    | some op => some (s.reg (regOf (fieldX op))).toNat
    | none => none

/-- Places an opcode where the next step fetches (R42), and sets what that step needs to fetch and run it: no latched
fault, `RUN` Running, and a PC at which two bytes exist (the entry point if PC is not such an address). -/
def State.placeOpcode (s : State) (op : Word) : State :=
  let pc := if s.pc.toNat + 2 ≤ Config.memSize then s.pc else Config.entry
  { s with
    pc := pc
    run := .running
    fault := none
    mem := s.mem.setBytes pc.toNat [highByte op, lowByte op] }

end Sys2Proof.Machine
end

