-- ==== Sys2Proof/Machine/Step.lean ====
section
/-! DEFINITION. The step function of the interface, and the host's way to place one instruction before it. -/

namespace Sys2Proof.Machine

/-- One call of `step()` (R89). -/
def step (s : State) : Host.Outcome State Fault Refusal := cycle s

/-- `s` with the instruction of an opcode-table word stored where `step` fetches next, standing for the host's `load`
(log 5). -/
def State.withFetchWord (s : State) (nbits w : Nat) : State := s.placeOpcode (tableOpcode nbits w)

end Sys2Proof.Machine
end

