-- ==== Sys2Proof/Machine/HostOps.lean ====
section
/-! DEFINITION. The host interface (50_host_interface.md): creation, load, keys, run state, the queries, and a run as
the interleaving of host operations and steps (R7). -/

namespace Sys2Proof.Machine

/-- `create(FONT)` (R240): the creation state with the font table given. With `defaultFont` it is `State.reset`. -/
def State.create (font : Vector Byte Config.fontSize) : State :=
  { State.reset with mem := Memory.setBytes [] 0 font.toList }

/-- What `load` answers (R191). -/
inductive LoadResult where
  | accepted (s : State)
  | rejected
  deriving DecidableEq, Repr

/-- `load(rom_bytes)` (R191): the bytes from 0x200 on, and PC; a longer image changes nothing. When the host may call
it is `Session.perform`'s affair (R192). -/
def State.load (s : State) (rom : List Byte) : LoadResult :=
  if rom.length > Config.romMax then .rejected
  else .accepted { s with mem := s.mem.setBytes Config.entry.toNat rom, pc := Config.entry }

/-- `setKey(index, pressed)` (R194): an index of 16 or more is ignored. -/
def State.setKey (s : State) (index : Nat) (pressed : Bool) : State :=
  if h : index < 16 then { s with key := s.key.set index pressed h } else s

/-- `togglePause()` (R196): Running and Paused change places, Quit stays. -/
def State.togglePause (s : State) : State :=
  match s.run with
  | .running => { s with run := .paused }
  | .paused => { s with run := .running }
  | .quit => s

/-- `quit()` (R197). -/
def State.quit (s : State) : State := { s with run := .quit }

/-- State query (R198): `RUN` only. -/
def State.runQuery (s : State) : RunState := s.run

/-- Screen query, one cell (R199). The grid is the query's whole domain (D23). -/
def State.screenCell (s : State) (col : Fin 64) (row : Fin 32) : Bool := Framebuffer.cell s.fb col row

/-- Screen query, flat form: the 2048 cells in row-major order (R199). -/
def State.screenFlat (s : State) : List Bool :=
  (List.range 2048).map fun idx => Framebuffer.cell s.fb (idx % 64) (idx / 64)

/-- Key query (R200). -/
def State.keyQuery (s : State) (k : Fin 16) : Bool := s.key.get k

/-- Tone signal (R201): `ST > 0`. -/
def State.tone (s : State) : Bool := decide (s.st.toNat > 0)

/-- One line of the trace (R202). An unrecognized opcode has no mnemonic. -/
structure TraceEntry where
  addr : Word
  opcode : Word
  mnemonic : Option String
  deriving DecidableEq, Repr

/-- The trace of the step from `s` (R202): derived from the state before the step, read by no rule. A step that
fetches nothing has none. -/
def State.trace (s : State) : Option TraceEntry :=
  match phase s with
  | .unrecognized addr op => some { addr := addr, opcode := op, mnemonic := none }
  | .execute i =>
    match s.fetch with
    | some op => some { addr := s.pc, opcode := op, mnemonic := some i.mnemonic }
    | none => none
  | .latched _ | .idle | .halted | .fetchFault => none

/-- One move of a run (R7, R190): a host operation or a step. -/
inductive HostEvent where
  | load (rom : List Byte)
  | step
  | setKey (index : Nat) (pressed : Bool)
  | togglePause
  | quit
  deriving DecidableEq, Repr

/-- A machine in its host's hands: the machine, and whether a `load` may still be accepted. The second is the run's, not
the Machine's, whose state is R10's list (log 6). -/
structure Session where
  machine : State
  loadOpen : Bool
  deriving DecidableEq, Repr

/-- A run begins at creation (R242). -/
def Session.launch (font : Vector Byte Config.fontSize) : Session :=
  { machine := State.create font, loadOpen := true }

/-- One atomic move (R7, R195). "any other accepted load is refused" (D15): only the first, before any step. A load
that is rejected changes nothing, at any time. -/
def Session.perform (σ : Session) : HostEvent → Host.Outcome Session Fault Refusal
  | .load rom =>
    match σ.machine.load rom with
    | .rejected => .next σ
    | .accepted s => if σ.loadOpen then .next { machine := s, loadOpen := false } else .refused .reload
  | .step =>
    match step σ.machine with
    | .next s => .next { machine := s, loadOpen := false }
    | .fault c => .fault c
    | .refused q => .refused q
  | .setKey index pressed => .next { σ with machine := σ.machine.setKey index pressed }
  | .togglePause => .next { σ with machine := σ.machine.togglePause }
  | .quit => .next { σ with machine := σ.machine.quit }

/-- A run: moves one after another, up to the first that is refused (R7). -/
def Session.run : List HostEvent → Session → Host.Outcome Session Fault Refusal
  | [], σ => .next σ
  | e :: es, σ =>
    match σ.perform e with
    | .next σ' => Session.run es σ'
    | .fault c => .fault c
    | .refused q => .refused q

end Sys2Proof.Machine
end

