-- ==== Sys2Proof/Safety.lean ====
section
/-! DEFINITION. The terms claims are stated in: a safe state, the machine's invariant, what two states have in common,
and the picture of a sprite. -/

namespace Sys2Proof.Machine

/-! ## Safe states and the invariant -/

/-- "every claim about a program takes `FAULT = None` as part of what it must establish" (R215). -/
abbrev State.NoFault (s : State) : Prop := s.fault = none

/-- The range of PC in every reachable state (R108). -/
abbrev State.PcInRange (s : State) : Prop := s.pc.toNat ≤ 0x10FE

/-- The range of every return address in every reachable state (R108). -/
abbrev State.StackInRange (s : State) : Prop := ∀ k : Fin 16, (s.stack.get k).toNat ≤ 4096

/-- What every reachable state satisfies: memory is in canonical form, and PC and the return addresses are in the ranges
of R108. -/
abbrev State.Inv (s : State) : Prop := s.mem.wf = true ∧ s.PcInRange ∧ s.StackInRange

/-- A state whose next step fetches and runs the instruction `i` (R89). -/
abbrev State.AboutTo (s : State) (i : Instr) : Prop := phase s = .execute i

/-- The step from `s` writes a timer by `Fx15` or `Fx18`. -/
def State.writesTimer (s : State) : Bool :=
  match phase s with
  | .execute (.setDT _) => true
  | .execute (.setST _) => true
  | _ => false

/-- The next `k` steps all tick, and none of them runs `Fx15` or `Fx18` (R91). -/
def State.quiet : Nat → State → Bool
  | 0, _ => true
  | k + 1, s =>
    (stepOutcome s).ticks && !s.writesTimer &&
      match step s with
      | .next t => State.quiet k t
      | .fault _ => false
      | .refused _ => false

/-- `k` steps one after another. -/
def stepsFrom : Nat → State → Result
  | 0, s => .next s
  | k + 1, s =>
    match step s with
    | .next t => stepsFrom k t
    | .fault c => .fault c
    | .refused q => .refused q

/-! ## What instructions name -/

/-- The registers an instruction names as its destination (R26): V[x], or the block V0 to Vx of `Fx65`. The flag write
of VF is not among them. -/
def namesDest : Instr → Reg → Bool
  | .ldImm x _, r | .addImm x _, r | .ldReg x _, r | .orReg x _, r | .andReg x _, r | .xorReg x _, r
  | .addReg x _, r | .subReg x _, r | .shr x _, r | .subn x _, r | .shl x _, r | .rnd x _, r
  | .ldDT x, r | .waitKey x, r => decide (r = x)
  | .loadRegs x, r => decide (r ≤ x)
  | .cls, _ | .ret, _ | .jp _, _ | .call _, _ | .seImm _ _, _ | .sneImm _ _, _ | .seReg _ _, _ | .sneReg _ _, _
  | .ldI _, _ | .jpV0 _, _ | .drw _ _ _, _ | .skp _, _ | .sknp _, _ | .setDT _, _ | .setST _, _ | .addI _, _
  | .ldFont _, _ | .bcd _, _ | .storeRegs _, _ => false

/-- The six instructions that write VF as a flag (R12). -/
def writesFlag : Instr → Bool
  | .addReg _ _ | .subReg _ _ | .shr _ _ | .subn _ _ | .shl _ _ | .drw _ _ _ => true
  | .cls | .ret | .jp _ | .call _ | .seImm _ _ | .sneImm _ _ | .seReg _ _ | .ldImm _ _ | .addImm _ _ | .ldReg _ _
  | .orReg _ _ | .andReg _ _ | .xorReg _ _ | .sneReg _ _ | .ldI _ | .jpV0 _ | .rnd _ _ | .skp _ | .sknp _ | .ldDT _
  | .waitKey _ | .setDT _ | .setST _ | .addI _ | .ldFont _ | .bcd _ | .storeRegs _ | .loadRegs _ => false

/-! ## What two states have in common -/

/-- Every byte of memory reads the same. -/
abbrev SameMemory (s t : State) : Prop := ∀ a, t.mem.byteAt a = s.mem.byteAt a

/-- The call stack and its pointer are the same. -/
abbrev SameStack (s t : State) : Prop := t.stack = s.stack ∧ t.sp = s.sp

/-- Framebuffer, keypad, run state and latched cause are the same. -/
abbrev SameDevices (s t : State) : Prop := t.fb = s.fb ∧ t.key = s.key ∧ t.run = s.run ∧ t.fault = s.fault

/-- Both timers are the same. -/
abbrev SameTimers (s t : State) : Prop := t.dt = s.dt ∧ t.st = s.st

/-- Both timers have fallen by n and stay at 0 (R88). -/
abbrev TimersFallenBy (n : Nat) (s t : State) : Prop :=
  t.dt.toNat = s.dt.toNat - n ∧ t.st.toNat = s.st.toNat - n

/-- Every register but those in `dest` reads the same. -/
abbrev SameRegsBut (dest : Reg → Prop) (s t : State) : Prop := ∀ r, ¬ dest r → t.reg r = s.reg r

/-- All but the V registers: what an instruction that only writes registers leaves (PC, which it leaves at the advanced
value, among them). -/
abbrev SameOutsideRegs (s t : State) : Prop :=
  SameMemory s t ∧ t.i = s.i ∧ t.pc = s.pc ∧ SameStack s t ∧ SameTimers s t ∧ SameDevices s t ∧ t.draws = s.draws

/-- All but PC: what a jump or a skip leaves. -/
abbrev SameOutsidePc (s t : State) : Prop :=
  SameMemory s t ∧ t.v = s.v ∧ t.i = s.i ∧ SameStack s t ∧ SameTimers s t ∧ SameDevices s t ∧ t.draws = s.draws

/-- All but I: what an instruction that sets the address register leaves. -/
abbrev SameOutsideI (s t : State) : Prop :=
  SameMemory s t ∧ t.v = s.v ∧ t.pc = s.pc ∧ SameStack s t ∧ SameTimers s t ∧ SameDevices s t ∧ t.draws = s.draws

/-- All but memory: what a store leaves. -/
abbrev SameOutsideMemory (s t : State) : Prop :=
  t.v = s.v ∧ t.i = s.i ∧ t.pc = s.pc ∧ SameStack s t ∧ SameTimers s t ∧ SameDevices s t ∧ t.draws = s.draws

/-- All but the framebuffer: what clearing it leaves. -/
abbrev SameOutsideFb (s t : State) : Prop :=
  SameMemory s t ∧ t.v = s.v ∧ t.i = s.i ∧ t.pc = s.pc ∧ SameStack s t ∧ SameTimers s t ∧ t.key = s.key ∧
    t.run = s.run ∧ t.fault = s.fault ∧ t.draws = s.draws

/-- All but the timers: what a step leaves that only ticks. -/
abbrev SameOutsideTimers (s t : State) : Prop :=
  SameMemory s t ∧ t.v = s.v ∧ t.i = s.i ∧ t.pc = s.pc ∧ SameStack s t ∧ SameDevices s t ∧ t.draws = s.draws

/-! ## Sprites -/

/-- Whether the sprite of bytes `bs`, its top left pixel at column `x0` and row `y0`, has a 1 at a column and row: row r
of the sprite is the byte r, and the most significant bit is its leftmost pixel (R161, R162). Not clipped. -/
def spritePixel (x0 y0 : Nat) (bs : List Byte) (col row : Nat) : Bool :=
  decide (x0 ≤ col) && decide (y0 ≤ row) && decide (row < y0 + bs.length) && (bs.getD (row - y0) 0).getMsbD (col - x0)

/-- The n bytes of the sprite at I (R161). -/
def State.sprite (s : State) (n : Nat) : List Byte := (List.range n).map fun r => s.mem.byteAt (s.i.toNat + r)

/-- Whether `Dxyn` has a 1 pixel at a column and row of the screen, its origin at (Vx mod 64, Vy mod 32) (R161). -/
def State.drawnPixel (s : State) (x y : Reg) (n col row : Nat) : Bool :=
  spritePixel ((s.reg x).toNat % 64) ((s.reg y).toNat % 32) (s.sprite n) col row

end Sys2Proof.Machine
end

