-- ==== Sys2Proof/Certificates/Slice0/Obligations.lean ====
section
/-! DEFINITION. The statements for the provers. Each docstring names the rule of spec/ it formalises, or says on what it
rests where the spec marks the point as its own decision or derivation. -/

open Sys2Proof Sys2Proof.Machine

/-! ## Encoding -/

/-- 30_encoding.md section 3: an opcode assembled from R64's pattern decodes to its instruction, every operand at every
value its field admits, and so do its two bytes in front of any others. -/
def Obligations.EncodeDecodeRoundTrip : Prop :=
  ∀ (i : Instr) (rest : List Byte), i.wellFormed = true →
    decode (encode i) = .instr i ∧ decodeBytes (encodeBytes i ++ rest) = .instr i rest

/-- 30_encoding.md section 3, the other direction: a word that decodes to an instruction is that instruction's opcode, so
decoding drops no bit, the ignored field of `8xy6` and `8xyE` among them (R68). -/
def Obligations.DecodedWordsReencode : Prop :=
  ∀ (op : Word) (i : Instr), decode op = .instr i → i.wellFormed = true ∧ encode i = op

/-- R64's table of masks: a word is the instruction of a row exactly when it has the row's match under the row's mask,
and no word lies in two rows. A row is named by its match. -/
def Obligations.DecodeFollowsOpcodeTable : Prop :=
  (∀ (op : Word) (i : Instr), decode op = .instr i → op &&& i.mask = i.pattern) ∧
  (∀ (op : Word) (i : Instr), op &&& i.mask = i.pattern → ∃ j, decode op = .instr j ∧ j.pattern = i.pattern) ∧
  (∀ (op : Word) (i j : Instr), op &&& i.mask = i.pattern → op &&& j.mask = j.pattern → i.pattern = j.pattern)

/-- 30_encoding.md section 4: the complete list of the words that are no instruction, by family. The exact match of
literal nibbles is the spec's decision D13 (log 7). -/
def Obligations.UnrecognizedWordsByFamily : Prop :=
  ∀ op : Word,
    ((∃ i, decode op = .instr i) ∨ decode op = .unrecognized op) ∧
    (decode op = .unrecognized op ↔
      (fieldFam op = 0x0 ∧ fieldNNN op ≠ 0x0E0 ∧ fieldNNN op ≠ 0x0EE) ∨
      (fieldFam op = 0x5 ∧ fieldN op ≠ 0x0) ∨
      (fieldFam op = 0x8 ∧ fieldN op ∈ [0x8, 0x9, 0xA, 0xB, 0xC, 0xD, 0xF]) ∨
      (fieldFam op = 0x9 ∧ fieldN op ≠ 0x0) ∨
      (fieldFam op = 0xE ∧ fieldNN op ∉ [0x9E, 0xA1]) ∨
      (fieldFam op = 0xF ∧ fieldNN op ∉ [0x07, 0x0A, 0x15, 0x18, 0x1E, 0x29, 0x33, 0x55, 0x65]))

/-- Words of the spec's own programs and vectors (95_test_vectors.md) decode to what their listing says. -/
def Obligations.SpecProgramWordsDecode : Prop :=
  decode 0x00E0 = .instr .cls ∧ decode 0x2208 = .instr (.call 0x208) ∧ decode 0x3011 = .instr (.seImm 0 0x11) ∧
  decode 0x8104 = .instr (.addReg 1 0) ∧ decode 0xA300 = .instr (.ldI 0x300) ∧
  decode 0xD012 = .instr (.drw 0 1 2) ∧ decode 0xE29E = .instr (.skp 2) ∧ decode 0xF265 = .instr (.loadRegs 2) ∧
  decode 0x5011 = .unrecognized 0x5011

/-! ## The step -/

/-- R89 (derived in the spec): where the gate passes and the two bytes at PC decode to `i`, the step is `exec i` on the
state whose PC is advanced, followed by the timer tick; or, when `exec` has raised a cause, only the latch. -/
def Obligations.StepRunsDecodedInstruction : Prop :=
  ∀ (s : State) (i : Instr), s.fault = none → s.run = .running → s.pc.toNat + 2 ≤ 4096 →
    decode (opcodeOf (s.mem.byteAt s.pc.toNat) (s.mem.byteAt (s.pc.toNat + 1))) = .instr i →
    step s = commit s (exec i s.advancePc) ∧
    ∀ t, exec i s.advancePc = .next t →
      (t.fault = none → step s = .next t.timerTick ∧ stepOutcome s = .ok) ∧
      (∀ c, t.fault = some c → step s = .next (s.raise c) ∧ stepOutcome s = .fatal c)

/-- What `withFetchWord` is for: a table word that decodes runs as the next step, from any state with canonical memory
(the placing stands for the host's load, log 5; big-endian by 20_memory.md section 2). -/
def Obligations.PlacedWordRunsNext : Prop :=
  ∀ (s : State) (w : Nat) (i : Instr), s.mem.wf = true → decodeTableWord 16 w = some i →
    (s.withFetchWord 16 w).AboutTo i

/-- R87. -/
def Obligations.UnrecognizedOpcodeOnlyAdvances : Prop :=
  ∀ (s : State) (op : Word), s.fault = none → s.run = .running → s.pc.toNat + 2 ≤ 4096 →
    op = opcodeOf (s.mem.byteAt s.pc.toNat) (s.mem.byteAt (s.pc.toNat + 1)) → (∀ i, decode op ≠ .instr i) →
    ∃ t, step s = .next t ∧ stepOutcome s = .okUnrecognized s.pc op ∧ t.pc = s.pc + 2 ∧ TimersFallenBy 1 s t ∧
      SameMemory s t ∧ t.v = s.v ∧ t.i = s.i ∧ SameStack s t ∧ SameDevices s t ∧ t.draws = s.draws

/-- 40_step_cycle.md section 2: a machine with PC at 4096 or above only ticks. One step is R83's own sentence; that the
condition lasts for the rest of the run, here any number of steps, R83 marks as derived from itself and R192. -/
def Obligations.HaltedMachineOnlyTicks : Prop :=
  ∀ (k : Nat) (s : State), s.fault = none → s.run = .running → 4096 ≤ s.pc.toNat →
    stepOutcome s = .halted ∧
    ∃ t, stepsFrom k s = .next t ∧ TimersFallenBy k s t ∧ SameOutsideTimers s t

/-- 40_step_cycle.md section 2, the gate, and 60_exceptions.md section 2 (the spec's decisions D6 and D7): a latched
fault, Paused and Quit stop every later step from changing anything, timers included. -/
def Obligations.StoppedMachineNeverMoves : Prop :=
  ∀ (k : Nat) (s : State), (s.fault ≠ none ∨ s.run ≠ .running) →
    stepsFrom k s = .next s ∧ (∀ c, s.fault = some c → stepOutcome s = .fatal c) ∧
    (s.fault = none → stepOutcome s = .idle)

/-- 60_exceptions.md section 2 (the spec's decision D6): a step that raises a cause changes the latch and nothing
else. -/
def Obligations.FatalStepCommitsNothing : Prop :=
  ∀ (s t : State) (c : Fault), s.fault = none → step s = .next t → t.fault = some c →
    t = { s with fault := some c } ∧ stepOutcome s = .fatal c

/-- 60_exceptions.md section 2, the table of causes (the spec's decisions D3, D4, D5): a cause is raised only by the
instruction or fetch the table names, only under its condition, and its recorded value is the table's. -/
def Obligations.FatalCausesMeetTheirConditions : Prop :=
  ∀ (s : State) (c : Fault), s.fault = none → stepOutcome s = .fatal c →
    match c with
    | .stackOverflow =>
      (∃ nnn, s.AboutTo (.call nnn)) ∧ s.sp = 16 ∧ (s.raise c).fatalInfo = some s.pc.toNat
    | .stackUnderflow => s.AboutTo .ret ∧ s.sp = 0 ∧ (s.raise c).fatalInfo = some s.pc.toNat
    | .fetchOutOfRange => s.pc.toNat = 4095 ∧ (s.raise c).fatalInfo = some 4095
    | .memOutOfRange =>
      ((∃ x y n, s.AboutTo (.drw x y n) ∧ 0 < n ∧ 4095 < s.i.toNat + n - 1) ∨
        (∃ x, s.AboutTo (.bcd x) ∧ 4095 < s.i.toNat + 2) ∨
        (∃ x, (s.AboutTo (.storeRegs x) ∨ s.AboutTo (.loadRegs x)) ∧ 4095 < s.i.toNat + x.val)) ∧
      (s.raise c).fatalInfo = some s.i.toNat
    | .keyIndexOutOfRange =>
      ∃ x, (s.AboutTo (.skp x) ∨ s.AboutTo (.sknp x)) ∧ 15 < (s.reg x).toNat ∧
        (s.raise c).fatalInfo = some (s.reg x).toNat

/-- 40_step_cycle.md section 2 (the spec's decision D3): the fetch at the last byte. -/
def Obligations.FetchAtLastByteIsFatal : Prop :=
  ∀ s : State, s.fault = none → s.run = .running → s.pc.toNat = 4095 →
    step s = .next { s with fault := some .fetchOutOfRange } ∧ stepOutcome s = .fatal .fetchOutOfRange

/-- 40_step_cycle.md section 1: every execute phase and every step answers a next state; no instruction stops the
model (that a fatal condition is a next state is the model's form, log 3). -/
def Obligations.EveryStepAnswersNext : Prop :=
  (∀ (i : Instr) (s : State), ∃ t, exec i s = .next t) ∧ ∀ s : State, ∃ t, step s = .next t

/-- R88: every step that runs an instruction, skips an unrecognized opcode or is halted ends with the tick, after the
instruction's own write of a timer and after its read of one; a timer at 0 stays 0. -/
def Obligations.TickEndsEveryTickingStep : Prop :=
  ∀ s : State, (stepOutcome s).ticks = true → ∃ t, step s = .next t ∧
    (∀ x, s.AboutTo (.setDT x) → t.dt.toNat = (s.reg x).toNat - 1) ∧
    ((∀ x, ¬ s.AboutTo (.setDT x)) → t.dt.toNat = s.dt.toNat - 1) ∧
    (∀ x, s.AboutTo (.setST x) → t.st.toNat = (s.reg x).toNat - 1) ∧
    ((∀ x, ¬ s.AboutTo (.setST x)) → t.st.toNat = s.st.toNat - 1) ∧
    (∀ x, s.AboutTo (.ldDT x) → t.reg x = s.dt)

/-- 40_step_cycle.md section 3, the timer law: over k ticking steps without `Fx15` and `Fx18` both timers become
max(initial - k, 0). -/
def Obligations.TimerLaw : Prop :=
  ∀ (k : Nat) (s : State), State.quiet k s = true → ∃ t, stepsFrom k s = .next t ∧ TimersFallenBy k s t

/-! ## Invariants -/

/-- 41_flow.md section 3 (derived in the spec) and the canonical form of memory: every step keeps them, from every state
that has them. -/
def Obligations.StepKeepsInvariant : Prop :=
  ∀ s t : State, s.Inv → step s = .next t → t.Inv

/-- The creation state has the invariant, with every font table. -/
def Obligations.CreationHasInvariant : Prop :=
  State.reset.Inv ∧ ∀ font : Vector Byte 80, (State.create font).Inv

/-- 41_flow.md section 3 (derived in the spec): in every state a run reaches, whatever the host loads and does between
the steps, PC is at most 0x10FE, every return address at most 4096, and memory canonical. -/
def Obligations.RunsKeepInvariant : Prop :=
  ∀ (font : Vector Byte 80) (events : List HostEvent) (σ : Session),
    Session.run events (Session.launch font) = .next σ → σ.machine.Inv

/-! ## Who writes what -/

/-- 10_state.md section 9, the writers column for memory, framebuffer, I, the stack and its pointer, and the timers: each
is written by the instructions listed there and by no other, and no instruction writes the keypad or the run state. The
clause on `draws` is about the model's own counter (log 2, DESIGN CHOICE), which the spec's table does not have. PC, the V
registers (`OnlyNamedRegistersChange`) and the latch (`FatalCausesMeetTheirConditions`) are not stated here. -/
def Obligations.OnlyListedInstructionsWrite : Prop :=
  ∀ (i : Instr) (s t : State), exec i s = .next t →
    ((∃ x, i = .bcd x ∨ i = .storeRegs x) ∨ t.mem = s.mem) ∧
    ((i = .cls ∨ ∃ x y n, i = .drw x y n) ∨ t.fb = s.fb) ∧
    ((∃ nnn, i = .ldI nnn) ∨ (∃ x, i = .addI x ∨ i = .ldFont x) ∨ t.i = s.i) ∧
    ((i = .ret ∨ ∃ nnn, i = .call nnn) ∨ SameStack s t) ∧
    ((∃ x, i = .setDT x) ∨ t.dt = s.dt) ∧ ((∃ x, i = .setST x) ∨ t.st = s.st) ∧
    ((∃ x nn, i = .rnd x nn) ∨ t.draws = s.draws) ∧ t.key = s.key ∧ t.run = s.run

/-- 10_state.md section 2 (the spec's decision D17): an instruction changes the V registers it names as destination, and
VF only if it is one of the six flag writers, which leave 0 or 1 there unless VF is also their destination. -/
def Obligations.OnlyNamedRegistersChange : Prop :=
  ∀ (i : Instr) (s t : State), exec i s = .next t →
    (∀ r : Reg, namesDest i r = false → (r = 15 → writesFlag i = false) → t.reg r = s.reg r) ∧
    (writesFlag i = true → t.fault = none → namesDest i 15 = false → t.reg 15 = 0 ∨ t.reg 15 = 1)

/-- 10_state.md section 8 and 42_alu.md section 5 (the spec's decision D10): a step that does not run `Cxnn` is the same
whatever the free bytes to come. -/
def Obligations.OnlyRndReadsTheRandomByte : Prop :=
  ∀ (s t : State) (n : Nat), (∀ x nn, ¬ s.AboutTo (.rnd x nn)) → step s = .next t →
    step { s with draws := n } = .next { t with draws := n }

/-- 10_state.md section 9, the readers column: a step that runs none of `Ex9E`, `ExA1` and `Fx0A` is the same whatever
keys are pressed. -/
def Obligations.OnlyKeyInstructionsReadTheKeypad : Prop :=
  ∀ (s t : State) (keys : Vector Bool 16),
    (∀ x, ¬ s.AboutTo (.skp x) ∧ ¬ s.AboutTo (.sknp x) ∧ ¬ s.AboutTo (.waitKey x)) → step s = .next t →
    step { s with key := keys } = .next { t with key := keys }

/-! ## Control transfer -/

/-- R101 and R103. -/
def Obligations.JumpsSetPc : Prop :=
  ∀ (nnn : Addr) (s : State),
    (∃ t, exec (.jp nnn) s = .next t ∧ t.pc.toNat = nnn.toNat ∧ SameOutsidePc s t) ∧
    (∃ t, exec (.jpV0 nnn) s = .next t ∧ t.pc.toNat = nnn.toNat + (s.reg 0).toNat ∧ SameOutsidePc s t)

/-- R104, R105, R106 and R107. -/
def Obligations.SkipsAddTwoToPc : Prop :=
  ∀ (x y : Reg) (nn : Byte) (s : State),
    (∃ t, exec (.seImm x nn) s = .next t ∧ SameOutsidePc s t ∧
      t.pc = (if (s.reg x).toNat = nn.toNat then s.pc + 2 else s.pc)) ∧
    (∃ t, exec (.sneImm x nn) s = .next t ∧ SameOutsidePc s t ∧
      t.pc = (if (s.reg x).toNat = nn.toNat then s.pc else s.pc + 2)) ∧
    (∃ t, exec (.seReg x y) s = .next t ∧ SameOutsidePc s t ∧
      t.pc = (if (s.reg x).toNat = (s.reg y).toNat then s.pc + 2 else s.pc)) ∧
    (∃ t, exec (.sneReg x y) s = .next t ∧ SameOutsidePc s t ∧
      t.pc = (if (s.reg x).toNat = (s.reg y).toNat then s.pc else s.pc + 2))

/-- 41_flow.md section 1, `2nnn`. That the overflow is a next state with the latch set, and nothing else, is the spec's
decision D6 (60_exceptions.md section 2) in the model's form (log 7, log 3). -/
def Obligations.CallPushesReturnAddress : Prop :=
  ∀ (nnn : Addr) (s : State),
    (∀ h : s.sp.val < 16, ∃ t, exec (.call nnn) s = .next t ∧ t.pc.toNat = nnn.toNat ∧ t.sp.val = s.sp.val + 1 ∧
      t.stack.get ⟨s.sp.val, h⟩ = s.pc ∧ (∀ k : Fin 16, k.val ≠ s.sp.val → t.stack.get k = s.stack.get k) ∧
      SameMemory s t ∧ t.v = s.v ∧ t.i = s.i ∧ SameTimers s t ∧ SameDevices s t ∧ t.draws = s.draws) ∧
    (s.sp = 16 → exec (.call nnn) s = .next { s with fault := some .stackOverflow })

/-- 41_flow.md section 1, `00EE`. That the underflow is a next state with the latch set, and nothing else, is the spec's
decision D6 (60_exceptions.md section 2) in the model's form (log 7, log 3). -/
def Obligations.ReturnPopsIntoPc : Prop :=
  ∀ s : State,
    (∀ (n : Nat) (h : n < 16), s.sp.val = n + 1 → ∃ t, exec .ret s = .next t ∧ t.pc = s.stack.get ⟨n, h⟩ ∧
      t.sp.val = n ∧ t.stack = s.stack ∧
      SameMemory s t ∧ t.v = s.v ∧ t.i = s.i ∧ SameTimers s t ∧ SameDevices s t ∧ t.draws = s.draws) ∧
    (s.sp = 0 → exec .ret s = .next { s with fault := some .stackUnderflow })

/-- 41_flow.md section 1, the source's stack round trip: a call whose target holds `00EE` is back after two steps, at
the address after the call. -/
def Obligations.CallThenReturnComesBack : Prop :=
  ∀ (s : State) (nnn : Addr), s.AboutTo (.call nnn) → s.sp.val < 16 → nnn.toNat + 2 ≤ 4096 →
    s.mem.byteAt nnn.toNat = 0x00 → s.mem.byteAt (nnn.toNat + 1) = 0xEE →
    ∃ t, stepsFrom 2 s = .next t ∧ t.pc = s.pc + 2 ∧ t.sp = s.sp ∧ TimersFallenBy 2 s t ∧
      SameMemory s t ∧ t.v = s.v ∧ t.i = s.i ∧ SameDevices s t ∧ t.draws = s.draws

/-! ## Register load, ALU, random -/

/-- R121, R123, R124, R125 and R126: the destination, and every other register (VF among them) unchanged. -/
def Obligations.LoadAndLogicWriteOneRegister : Prop :=
  ∀ (x y : Reg) (nn : Byte) (s : State),
    (∃ t, exec (.ldImm x nn) s = .next t ∧ t.reg x = nn ∧ SameRegsBut (· = x) s t ∧ SameOutsideRegs s t) ∧
    (∃ t, exec (.ldReg x y) s = .next t ∧ t.reg x = s.reg y ∧ SameRegsBut (· = x) s t ∧ SameOutsideRegs s t) ∧
    (∃ t, exec (.orReg x y) s = .next t ∧ SameRegsBut (· = x) s t ∧ SameOutsideRegs s t ∧
      ∀ k, (t.reg x).getLsbD k = ((s.reg x).getLsbD k || (s.reg y).getLsbD k)) ∧
    (∃ t, exec (.andReg x y) s = .next t ∧ SameRegsBut (· = x) s t ∧ SameOutsideRegs s t ∧
      ∀ k, (t.reg x).getLsbD k = ((s.reg x).getLsbD k && (s.reg y).getLsbD k)) ∧
    (∃ t, exec (.xorReg x y) s = .next t ∧ SameRegsBut (· = x) s t ∧ SameOutsideRegs s t ∧
      ∀ k, (t.reg x).getLsbD k = ((s.reg x).getLsbD k ^^ (s.reg y).getLsbD k))

/-- R122. -/
def Obligations.AddImmediateWrapsWithoutFlag : Prop :=
  ∀ (x : Reg) (nn : Byte) (s : State), ∃ t, exec (.addImm x nn) s = .next t ∧
    (t.reg x).toNat = ((s.reg x).toNat + nn.toNat) % 256 ∧ SameRegsBut (· = x) s t ∧ SameOutsideRegs s t

/-- 42_alu.md section 4, `8xy4` for every x and y: with x = F the sum stays, by R120 (42_alu.md section 1), the spec's
decision D2 (log 7); else VF is the carry. -/
def Obligations.AddSetsCarryThenSum : Prop :=
  ∀ (x y : Reg) (s : State), ∃ t, exec (.addReg x y) s = .next t ∧
    (t.reg x).toNat = ((s.reg x).toNat + (s.reg y).toNat) % 256 ∧
    (x ≠ 15 → (t.reg 15).toNat = if (s.reg x).toNat + (s.reg y).toNat > 255 then 1 else 0) ∧
    SameRegsBut (fun r => r = x ∨ r = 15) s t ∧ SameOutsideRegs s t

/-- 42_alu.md section 4, `8xy5` and `8xy7` for every x and y: with x = F the difference stays, by R120 (42_alu.md
section 1), the spec's decision D2 (log 7); else VF is the no-borrow flag. -/
def Obligations.SubtractsSetNoBorrowThenDifference : Prop :=
  ∀ (x y : Reg) (s : State),
    (∃ t, exec (.subReg x y) s = .next t ∧
      ((t.reg x).toNat : Int) = (((s.reg x).toNat : Int) - (s.reg y).toNat) % 256 ∧
      (x ≠ 15 → (t.reg 15).toNat = if (s.reg y).toNat ≤ (s.reg x).toNat then 1 else 0) ∧
      SameRegsBut (fun r => r = x ∨ r = 15) s t ∧ SameOutsideRegs s t) ∧
    (∃ t, exec (.subn x y) s = .next t ∧
      ((t.reg x).toNat : Int) = (((s.reg y).toNat : Int) - (s.reg x).toNat) % 256 ∧
      (x ≠ 15 → (t.reg 15).toNat = if (s.reg x).toNat ≤ (s.reg y).toNat then 1 else 0) ∧
      SameRegsBut (fun r => r = x ∨ r = 15) s t ∧ SameOutsideRegs s t)

/-- 42_alu.md section 4, `8xy6` and `8xyE` for every x: one and the same next state for every y, which is ignored
(30_encoding.md section 4); with x = F the shifted value stays, by R120 (42_alu.md section 1), the spec's decision D2
(log 7); else VF is the bit shifted out. -/
def Obligations.ShiftsSetBitOutThenResult : Prop :=
  ∀ (x : Reg) (s : State),
    (∃ t, (∀ y, exec (.shr x y) s = .next t) ∧ (t.reg x).toNat = (s.reg x).toNat / 2 ∧
      (x ≠ 15 → (t.reg 15).toNat = (s.reg x).toNat % 2) ∧
      SameRegsBut (fun r => r = x ∨ r = 15) s t ∧ SameOutsideRegs s t) ∧
    (∃ t, (∀ y, exec (.shl x y) s = .next t) ∧ (t.reg x).toNat = 2 * (s.reg x).toNat % 256 ∧
      (x ≠ 15 → (t.reg 15).toNat = (s.reg x).toNat / 128) ∧
      SameRegsBut (fun r => r = x ∨ r = 15) s t ∧ SameOutsideRegs s t)

/-- 42_alu.md section 5 (the spec's decision D10, log 2): `Vx` becomes the free byte under the mask, whatever the byte
is; where the mask has a 0 so has `Vx`; the next draw is another free byte. -/
def Obligations.RandomByteIsMasked : Prop :=
  ∀ (x : Reg) (nn : Byte) (s : State), ∃ t, exec (.rnd x nn) s = .next t ∧
    (∀ k, (t.reg x).getLsbD k = ((Config.rnd s.draws).getLsbD k && nn.getLsbD k)) ∧
    (∀ k, nn.getLsbD k = false → (t.reg x).getLsbD k = false) ∧ t.draws = s.draws + 1 ∧
    SameRegsBut (· = x) s t ∧ SameMemory s t ∧ t.i = s.i ∧ t.pc = s.pc ∧ SameStack s t ∧ SameTimers s t ∧
    SameDevices s t

/-! ## Address register, loads and stores -/

/-- R140 and R141. -/
def Obligations.AddressRegisterLoadAndAdd : Prop :=
  ∀ (nnn : Addr) (x : Reg) (s : State),
    (∃ t, exec (.ldI nnn) s = .next t ∧ t.i.toNat = nnn.toNat ∧ SameOutsideI s t) ∧
    (∃ t, exec (.addI x) s = .next t ∧ t.i.toNat = (s.i.toNat + (s.reg x).toNat) % 65536 ∧ SameOutsideI s t)

/-- 43_index_memory.md section 1 (the literal product above 15 is the spec's decision D14): I is five times the whole
byte. -/
def Obligations.GlyphAddressIsFiveTimesVx : Prop :=
  ∀ (x : Reg) (s : State), ∃ t, exec (.ldFont x) s = .next t ∧ t.i.toNat = 5 * (s.reg x).toNat ∧ SameOutsideI s t

/-- 43_index_memory.md section 2 (the bound is the spec's decision D4): the three digits at I, I + 1 and I + 2, and
nothing else. -/
def Obligations.DecimalDigitsAreStored : Prop :=
  ∀ (x : Reg) (s : State), s.mem.wf = true → s.i.toNat + 2 ≤ 4095 →
    ∃ t, exec (.bcd x) s = .next t ∧ t.mem.wf = true ∧
      (t.mem.byteAt s.i.toNat).toNat = (s.reg x).toNat / 100 ∧
      (t.mem.byteAt (s.i.toNat + 1)).toNat = (s.reg x).toNat / 10 % 10 ∧
      (t.mem.byteAt (s.i.toNat + 2)).toNat = (s.reg x).toNat % 10 ∧
      (∀ a, a < s.i.toNat ∨ s.i.toNat + 2 < a → t.mem.byteAt a = s.mem.byteAt a) ∧ SameOutsideMemory s t

/-- 43_index_memory.md section 2 (the bound is the spec's decision D4): V0 to Vx at I to I + x, and nothing else. -/
def Obligations.RegisterBlockIsStored : Prop :=
  ∀ (x : Reg) (s : State), s.mem.wf = true → s.i.toNat + x.val ≤ 4095 →
    ∃ t, exec (.storeRegs x) s = .next t ∧ t.mem.wf = true ∧
      (∀ k : Reg, k ≤ x → t.mem.byteAt (s.i.toNat + k.val) = s.reg k) ∧
      (∀ a, a < s.i.toNat ∨ s.i.toNat + x.val < a → t.mem.byteAt a = s.mem.byteAt a) ∧ SameOutsideMemory s t

/-- 43_index_memory.md section 2 (the bound is the spec's decision D4): the bytes at I to I + x into V0 to Vx, the
registers above unchanged. -/
def Obligations.RegisterBlockIsLoaded : Prop :=
  ∀ (x : Reg) (s : State), s.i.toNat + x.val ≤ 4095 →
    ∃ t, exec (.loadRegs x) s = .next t ∧ (∀ k : Reg, k ≤ x → t.reg k = s.mem.byteAt (s.i.toNat + k.val)) ∧
      SameRegsBut (· ≤ x) s t ∧ SameOutsideRegs s t

/-- 43_index_memory.md section 2: what `Fx55` stores, `Fx65` loads back, whatever happened to the registers in
between. -/
def Obligations.StoredBlockLoadsBack : Prop :=
  ∀ (x : Reg) (s : State) (v : Vector Byte 16), s.mem.wf = true → s.i.toNat + x.val ≤ 4095 →
    ∃ t u, exec (.storeRegs x) s = .next t ∧ exec (.loadRegs x) { t with v := v } = .next u ∧
      (∀ k : Reg, k ≤ x → u.reg k = s.reg k) ∧ ∀ k : Reg, x < k → u.reg k = v.get k

/-- 20_memory.md section 5 (the spec's decision D4): an access whose last address exceeds 4095 raises `MemOutOfRange`
before any write; addresses do not wrap. -/
def Obligations.AccessBeyondMemoryIsFatal : Prop :=
  ∀ (x y : Reg) (n : Nat) (s : State),
    (0 < n → 4095 < s.i.toNat + n - 1 → exec (.drw x y n) s = .next { s with fault := some .memOutOfRange }) ∧
    (4095 < s.i.toNat + 2 → exec (.bcd x) s = .next { s with fault := some .memOutOfRange }) ∧
    (4095 < s.i.toNat + x.val →
      exec (.storeRegs x) s = .next { s with fault := some .memOutOfRange } ∧
      exec (.loadRegs x) s = .next { s with fault := some .memOutOfRange })

/-- 20_memory.md section 6 (derived in the spec): bytes that `Fx55` stores where PC points are the next opcode. -/
def Obligations.StoredBytesAreFetchedNext : Prop :=
  ∀ (x : Reg) (s : State), s.mem.wf = true → 1 ≤ x → s.i.toNat + x.val ≤ 4095 → s.pc = s.i →
    ∃ t, exec (.storeRegs x) s = .next t ∧ t.fetch = some (opcodeOf (s.reg 0) (s.reg 1))

/-- The canonical form is one: two canonical memories that read the same are the same data (20_memory.md section 1; the
representation is the model's). -/
def Obligations.EqualReadsMakeEqualMemories : Prop :=
  ∀ m m' : Memory, m.wf = true → m'.wf = true → (∀ a < 4096, m.byteAt a = m'.byteAt a) → m = m'

/-! ## Framebuffer -/

/-- R160. -/
def Obligations.ClearUnsetsEveryCell : Prop :=
  ∀ s : State, ∃ t, exec .cls s = .next t ∧
    (∀ c ≤ 63, ∀ r ≤ 31, Framebuffer.cell t.fb c r = false) ∧ SameOutsideFb s t

/-- 44_display.md (the spec's decisions D2, D4 and D9): every cell of the grid becomes its exclusive or with the sprite's
pixel there, nothing is drawn off the grid, VF is 1 exactly when a set cell was hit, and nothing else changes. -/
def Obligations.DrawTogglesVisiblePixels : Prop :=
  ∀ (x y : Reg) (n : Nat) (s : State), (n = 0 ∨ s.i.toNat + n - 1 ≤ 4095) →
    ∃ t, exec (.drw x y n) s = .next t ∧
      (∀ c ≤ 63, ∀ r ≤ 31, Framebuffer.cell t.fb c r = (Framebuffer.cell s.fb c r ^^ s.drawnPixel x y n c r)) ∧
      (t.reg 15 = 0 ∨ t.reg 15 = 1) ∧
      (t.reg 15 = 1 ↔ ∃ c ≤ 63, ∃ r ≤ 31, s.drawnPixel x y n c r = true ∧ Framebuffer.cell s.fb c r = true) ∧
      SameRegsBut (· = 15) s t ∧ SameMemory s t ∧ t.i = s.i ∧ t.pc = s.pc ∧ SameStack s t ∧ SameTimers s t ∧
      t.key = s.key ∧ t.run = s.run ∧ t.fault = s.fault ∧ t.draws = s.draws

/-- 44_display.md, the source's idempotence (derived in the spec): drawing twice restores the whole framebuffer, and the
second VF is 1 exactly when a visible pixel fell on a cell that was 0 before the first draw. -/
def Obligations.DrawTwiceRestoresFramebuffer : Prop :=
  ∀ (x y : Reg) (n : Nat) (s : State), x ≠ 15 → y ≠ 15 → (n = 0 ∨ s.i.toNat + n - 1 ≤ 4095) →
    ∃ t u, exec (.drw x y n) s = .next t ∧ exec (.drw x y n) t = .next u ∧ u.fb = s.fb ∧
      (u.reg 15 = 1 ↔ ∃ c ≤ 63, ∃ r ≤ 31, s.drawnPixel x y n c r = true ∧ Framebuffer.cell s.fb c r = false)

/-! ## Keypad and timers -/

/-- 45_keypad_timers.md section 1, where the key exists: the skip follows the key's level, and nothing else
changes. -/
def Obligations.KeySkipsFollowKeyLevel : Prop :=
  ∀ (x : Reg) (s : State) (h : (s.reg x).toNat < 16),
    (∃ t, exec (.skp x) s = .next t ∧ SameOutsidePc s t ∧
      t.pc = (if s.key.get ⟨(s.reg x).toNat, h⟩ = true then s.pc + 2 else s.pc)) ∧
    (∃ t, exec (.sknp x) s = .next t ∧ SameOutsidePc s t ∧
      t.pc = (if s.key.get ⟨(s.reg x).toNat, h⟩ = true then s.pc else s.pc + 2))

/-- 45_keypad_timers.md section 1 (the spec's decision D5): a key index above 15 is fatal, and is not masked. -/
def Obligations.KeyIndexAboveFifteenIsFatal : Prop :=
  ∀ (x : Reg) (s : State), 15 < (s.reg x).toNat →
    exec (.skp x) s = .next { s with fault := some .keyIndexOutOfRange } ∧
    exec (.sknp x) s = .next { s with fault := some .keyIndexOutOfRange }

/-- R175: the least pressed key completes the wait; with no key pressed PC goes back by 2, so that over the whole step
only the timers move and the instruction is fetched anew. -/
def Obligations.KeyWaitTakesLeastKeyOrRewinds : Prop :=
  ∀ (x : Reg) (s : State),
    (∀ k : Fin 16, s.key.get k = true → (∀ j < k, s.key.get j = false) →
      ∃ t, exec (.waitKey x) s = .next t ∧ (t.reg x).toNat = k.val ∧ SameRegsBut (· = x) s t ∧
        SameOutsideRegs s t) ∧
    ((∀ k : Fin 16, s.key.get k = false) →
      (∃ t, exec (.waitKey x) s = .next t ∧ t.pc = s.pc - 2 ∧ SameOutsidePc s t) ∧
      (s.AboutTo (.waitKey x) → stepOutcome s = .ok ∧
        ∃ t, step s = .next t ∧ TimersFallenBy 1 s t ∧ SameOutsideTimers s t ∧ t.AboutTo (.waitKey x)))

/-- 45_keypad_timers.md section 2, the execute phase: what each timer instruction writes, and nothing else. -/
def Obligations.TimerInstructionsMoveOneByte : Prop :=
  ∀ (x : Reg) (s : State),
    (∃ t, exec (.ldDT x) s = .next t ∧ t.reg x = s.dt ∧ SameRegsBut (· = x) s t ∧ SameOutsideRegs s t) ∧
    (∃ t, exec (.setDT x) s = .next t ∧ t.dt = s.reg x ∧ t.st = s.st ∧ SameMemory s t ∧ t.v = s.v ∧ t.i = s.i ∧
      t.pc = s.pc ∧ SameStack s t ∧ SameDevices s t ∧ t.draws = s.draws) ∧
    (∃ t, exec (.setST x) s = .next t ∧ t.st = s.reg x ∧ t.dt = s.dt ∧ SameMemory s t ∧ t.v = s.v ∧ t.i = s.i ∧
      t.pc = s.pc ∧ SameStack s t ∧ SameDevices s t ∧ t.draws = s.draws)

/-- R172, R173 and R174 over the whole step: a timer is read before the step's tick and written before it. -/
def Obligations.TimerInstructionsComeBeforeTheTick : Prop :=
  ∀ (x : Reg) (s : State),
    (s.AboutTo (.ldDT x) → ∃ t, step s = .next t ∧ t.reg x = s.dt ∧ t.dt.toNat = s.dt.toNat - 1 ∧
      t.st.toNat = s.st.toNat - 1 ∧ SameRegsBut (· = x) s t ∧ t.pc = s.pc + 2) ∧
    (s.AboutTo (.setDT x) → ∃ t, step s = .next t ∧ t.dt.toNat = (s.reg x).toNat - 1 ∧
      t.st.toNat = s.st.toNat - 1 ∧ t.v = s.v ∧ t.pc = s.pc + 2) ∧
    (s.AboutTo (.setST x) → ∃ t, step s = .next t ∧ t.st.toNat = (s.reg x).toNat - 1 ∧
      t.dt.toNat = s.dt.toNat - 1 ∧ t.v = s.v ∧ t.pc = s.pc + 2)

/-- 40_step_cycle.md section 3, the tone signal (derived in the spec): the host sees the tone on after `Fx18` exactly
when the value written is at least 2. -/
def Obligations.ToneIsSeenFromTwoUp : Prop :=
  ∀ (x : Reg) (s : State), s.AboutTo (.setST x) →
    ∃ t, step s = .next t ∧ (t.tone = true ↔ 2 ≤ (s.reg x).toNat)

/-! ## Host interface and creation -/

/-- R191. -/
def Obligations.LoadCopiesProgramOrRejects : Prop :=
  ∀ (rom : List Byte) (s : State), s.mem.wf = true →
    (rom.length ≤ 3584 → ∃ t, s.load rom = .accepted t ∧ t.pc = 0x200 ∧ t.mem.wf = true ∧
      (∀ k < rom.length, t.mem.byteAt (0x200 + k) = rom.getD k 0) ∧
      (∀ a, a < 0x200 ∨ 0x200 + rom.length ≤ a → t.mem.byteAt a = s.mem.byteAt a) ∧
      t.v = s.v ∧ t.i = s.i ∧ SameStack s t ∧ SameTimers s t ∧ SameDevices s t ∧ t.draws = s.draws) ∧
    (3584 < rom.length → s.load rom = .rejected)

/-- R194, and that nothing else writes the keypad. -/
def Obligations.SetKeyWritesOneKey : Prop :=
  ∀ (index : Nat) (pressed : Bool) (s : State),
    (∀ h : index < 16, (s.setKey index pressed).key.get ⟨index, h⟩ = pressed) ∧
    (∀ k : Fin 16, k.val ≠ index → (s.setKey index pressed).key.get k = s.key.get k) ∧
    s.setKey index pressed = { s with key := (s.setKey index pressed).key } ∧
    (16 ≤ index → s.setKey index pressed = s) ∧
    (∀ h : index < 16, s.key.get ⟨index, h⟩ = pressed → s.setKey index pressed = s) ∧
    (∀ before, (s.setKey index before).setKey index pressed = s.setKey index pressed) ∧
    (∀ t, step s = .next t → t.key = s.key) ∧ s.togglePause.key = s.key ∧ s.quit.key = s.key ∧
    ∀ rom t, s.load rom = .accepted t → t.key = s.key

/-- 50_host_interface.md section 4 (the spec's decision D7): toggling exchanges Running and Paused, Quit is absorbing,
and a pause lifted leaves the machine where it was. -/
def Obligations.RunStateOperations : Prop :=
  ∀ s : State,
    (s.run = .running → s.togglePause = { s with run := .paused } ∧ s.togglePause.togglePause = s) ∧
    (s.run = .paused → s.togglePause = { s with run := .running } ∧ s.togglePause.togglePause = s) ∧
    (s.run = .quit → s.togglePause = s ∧ s.quit = s) ∧
    s.quit = { s with run := .quit } ∧ s.quit.togglePause = s.quit

/-- 50_host_interface.md section 2 (the spec's decision D15; what closes the window is log 6): once a step or an accepted
load has happened, another load that would be accepted is refused, and one that is too large still changes nothing. -/
def Obligations.SecondLoadIsRefused : Prop :=
  ∀ (font : Vector Byte 80) (events : List HostEvent) (σ : Session) (rom : List Byte),
    Session.run events (Session.launch font) = .next σ →
    (rom.length ≤ 3584 → (HostEvent.step ∈ events ∨ ∃ r, HostEvent.load r ∈ events ∧ r.length ≤ 3584) →
      σ.perform (.load rom) = .refused .reload) ∧
    (rom.length ≤ 3584 → (HostEvent.step ∉ events ∧ ∀ r, HostEvent.load r ∈ events → 3584 < r.length) →
      ∃ t, σ.perform (.load rom) = .next t ∧ σ.machine.load rom = .accepted t.machine) ∧
    (3584 < rom.length → σ.perform (.load rom) = .next σ)

/-- 10_state.md section 10 and 70_reset_and_hazards.md section 1: creation with any font table. FAULT and RUN are the
spec's decisions D6 and D7; that `State.reset` has the default table is log 1. -/
def Obligations.CreationState : Prop :=
  (∀ font : Vector Byte 80,
    (∀ (a : Nat) (h : a < 80), (State.create font).mem.byteAt a = font[a]) ∧
    (∀ a, 80 ≤ a → (State.create font).mem.byteAt a = 0) ∧
    (∀ r, (State.create font).reg r = 0) ∧ (State.create font).i = 0 ∧ (State.create font).pc = 0x200 ∧
    (∀ k, (State.create font).stack.get k = 0) ∧ (State.create font).sp = 0 ∧ (State.create font).dt = 0 ∧
    (State.create font).st = 0 ∧ (∀ c ≤ 63, ∀ r ≤ 31, Framebuffer.cell (State.create font).fb c r = false) ∧
    (∀ k, (State.create font).key.get k = false) ∧ (State.create font).run = .running ∧
    (State.create font).fault = none) ∧
  State.create defaultFont = State.reset

/-- 50_host_interface.md section 5, the screen query: 2048 cells in row-major order, each the cell query's. -/
def Obligations.ScreenFlatFormIsRowMajor : Prop :=
  ∀ s : State, s.screenFlat.length = 2048 ∧
    ∀ (col : Fin 64) (row : Fin 32), s.screenFlat[row.val * 64 + col.val]? = some (s.screenCell col row)
end

