-- ==== Sys2Proof/Laws/Display.lean ====
section
/-! SUPPORT. What drawing does, cell by cell: every visible 1 pixel of the sprite toggles its cell, and a collision is a
visible 1 pixel on a set cell. -/

namespace Sys2Proof.Machine

/-- The word of one column has a 1 in that column only. -/
theorem getMsbD_columnBit {col : Nat} (h : col < 64) (c : Nat) : (columnBit col).getMsbD c = decide (c = col) := by
  have hb : ∀ k, (0x8000000000000000#64).getMsbD k = decide (k = 0) := by
    intro k
    by_cases hk : k < 64
    · interval_cases k <;> rfl
    · rw [BitVec.getMsbD_of_ge _ _ (by omega)]; simp; omega
  unfold columnBit
  rw [BitVec.getMsbD_ushiftRight, hb]
  by_cases hc : c < 64 <;> by_cases h2 : c < col <;> simp [hc, h2] <;> omega

/-- Toggling changes one cell of the grid (R161). -/
theorem cell_toggle (fb : Framebuffer) {col row : Nat} (hc : col ≤ 63) (hr : row ≤ 31) (c r : Nat) :
    Framebuffer.cell (Framebuffer.toggle fb col row) c r =
      (Framebuffer.cell fb c r ^^ (decide (c = col) && decide (r = row))) := by
  have hr' : row < Config.fbHeight := Nat.lt_succ_of_le hr
  unfold Framebuffer.toggle Framebuffer.cell
  rw [dif_pos hr']
  by_cases h : r < Config.fbHeight
  · rw [dif_pos h, dif_pos h]
    by_cases e : r = row
    · subst e
      rw [Vector.getElem_set_self, BitVec.getMsbD_xor, getMsbD_columnBit (by omega)]
      simp
    · rw [Vector.getElem_set_ne _ _ (by omega)]; simp [e]
  · rw [dif_neg h, dif_neg h]
    have : r ≠ row := by omega
    simp [this]

/-- A clear framebuffer has no set cell (R160). -/
theorem cell_clear (c r : Nat) : Framebuffer.cell Framebuffer.clear c r = false := by
  unfold Framebuffer.cell Framebuffer.clear
  split
  · rw [Vector.getElem_replicate]; simp
  · rfl

/-- Two framebuffers with the same cells are the same. -/
theorem Framebuffer.ext_cells {f g : Framebuffer}
    (h : ∀ c ≤ 63, ∀ r ≤ 31, Framebuffer.cell f c r = Framebuffer.cell g c r) : f = g := by
  apply Vector.ext
  intro r hr
  apply BitVec.eq_of_getMsbD_eq
  intro c hc
  have := h c (by omega) r (by omega)
  simpa [Framebuffer.cell, Config.fbHeight, hr] using this

/-- One pixel: dropped off the grid, else its cell toggles and a set cell is a collision (R161). -/
theorem drawPixel_spec (col row : Nat) (d : Drawing) :
    (∀ c r, c ≤ 63 → r ≤ 31 → Framebuffer.cell (drawPixel col row d).fb c r =
      (Framebuffer.cell d.fb c r ^^ (decide (c = col) && decide (r = row)))) ∧
    ((drawPixel col row d).collision = true ↔
      d.collision = true ∨ (col ≤ 63 ∧ row ≤ 31 ∧ Framebuffer.cell d.fb col row = true)) := by
  unfold drawPixel
  split
  · next h => exact ⟨fun c r _ _ => cell_toggle d.fb h.1 h.2 c r, by simp [h.1, h.2]⟩
  · next h =>
    refine ⟨fun c r hc hr => ?_, by simp; intros; omega⟩
    have : ¬ (c = col ∧ r = row) := fun e => h (by omega)
    simp only [not_and] at this
    by_cases e : c = col <;> simp [e, this]

/-- The first m columns of one sprite row. -/
def rowPixel (x0 m : Nat) (b : Byte) (col : Nat) : Bool :=
  decide (x0 ≤ col) && decide (col < x0 + m) && b.getLsbD (7 - (col - x0))

/-- One more column of a sprite row. -/
theorem rowPixel_succ (x0 m : Nat) (b : Byte) (col : Nat) :
    rowPixel x0 (m + 1) b col = (rowPixel x0 m b col ^^ (decide (col = x0 + m) && b.getLsbD (7 - m))) := by
  unfold rowPixel
  by_cases h1 : x0 ≤ col <;> by_cases h2 : col < x0 + m <;> by_cases h3 : col = x0 + m <;>
    simp [h1, h2, h3] <;> omega

/-- One sprite row, drawn up to column m (R161, R162). -/
theorem drawRow_upto (x0 row : Nat) (b : Byte) (d : Drawing) : ∀ m,
    (∀ c r, c ≤ 63 → r ≤ 31 →
      Framebuffer.cell ((List.range m).foldl
        (fun d c => if b.getLsbD (7 - c) then drawPixel (x0 + c) row d else d) d).fb c r =
      (Framebuffer.cell d.fb c r ^^ (rowPixel x0 m b c && decide (r = row)))) ∧
    (((List.range m).foldl
        (fun d c => if b.getLsbD (7 - c) then drawPixel (x0 + c) row d else d) d).collision = true ↔
      d.collision = true ∨ ∃ c ≤ 63, row ≤ 31 ∧ rowPixel x0 m b c = true ∧ Framebuffer.cell d.fb c row = true)
  | 0 => by
    have h0 : ∀ c, rowPixel x0 0 b c = false := by
      intro c; unfold rowPixel; by_cases h : x0 ≤ c <;> simp [h]
    constructor
    · intro c r _ _; simp [h0]
    · simp [h0]
  | m + 1 => by
    obtain ⟨ihc, ihk⟩ := drawRow_upto x0 row b d m
    rw [List.range_succ, List.foldl_append]
    simp only [List.foldl_cons, List.foldl_nil]
    generalize (List.range m).foldl (fun d c => if b.getLsbD (7 - c) then drawPixel (x0 + c) row d else d) d = e at *
    by_cases hb : b.getLsbD (7 - m) = true
    · rw [if_pos hb]
      obtain ⟨pc, pk⟩ := drawPixel_spec (x0 + m) row e
      constructor
      · intro c r hc hr
        rw [pc c r hc hr, ihc c r hc hr, rowPixel_succ, hb, Bool.and_true, Bool.and_xor_distrib_right, Bool.xor_assoc]
      · rw [pk, ihk]
        have hm : rowPixel x0 m b (x0 + m) = false := by unfold rowPixel; simp
        constructor
        · rintro ((h | ⟨c, hc, hr, hp, hs⟩) | ⟨hc, hr, hs⟩)
          · exact .inl h
          · refine .inr ⟨c, hc, hr, ?_, hs⟩
            have hne : c ≠ x0 + m := by rintro rfl; rw [hm] at hp; exact absurd hp (by simp)
            rw [rowPixel_succ]; simp [hp, hne]
          · refine .inr ⟨x0 + m, hc, hr, ?_, ?_⟩
            · rw [rowPixel_succ, hm, hb]; simp
            · rw [ihc _ _ hc hr, hm] at hs; simpa using hs
        · rintro (h | ⟨c, hc, hr, hp, hs⟩)
          · exact .inl (.inl h)
          · by_cases he : c = x0 + m
            · subst he
              exact .inr ⟨hc, hr, by rw [ihc _ _ hc hr, hm]; simpa using hs⟩
            · rw [rowPixel_succ] at hp
              simp [he] at hp
              exact .inl (.inr ⟨c, hc, hr, hp, hs⟩)
    · rw [if_neg hb]
      have hs : ∀ c, rowPixel x0 (m + 1) b c = rowPixel x0 m b c := by
        intro c; rw [rowPixel_succ]; simp [hb]
      simp only [hs]
      exact ⟨ihc, ihk⟩

/-- The pixels of a sprite, first row and rest. -/
theorem spritePixel_cons (x0 y0 : Nat) (b : Byte) (bs : List Byte) (c r : Nat) :
    spritePixel x0 y0 (b :: bs) c r =
      ((rowPixel x0 8 b c && decide (r = y0)) ^^ spritePixel x0 (y0 + 1) bs c r) := by
  unfold spritePixel rowPixel
  by_cases hx : x0 ≤ c
  · by_cases hr : r = y0
    · subst hr
      have : ¬ (r + 1 ≤ r) := by omega
      simp only [hx, decide_true, Bool.true_and, le_refl, List.length_cons, List.getD_cons_zero, Nat.sub_self, this,
        decide_false, Bool.false_and, Bool.xor_false, Bool.and_true, BitVec.getMsbD]
      have : r < r + (bs.length + 1) := by omega
      by_cases h8 : c < x0 + 8
      · simp [this, h8, show c - x0 < 8 by omega]
      · simp [this, h8, show ¬ c - x0 < 8 by omega]
    · by_cases h1 : y0 ≤ r
      · obtain ⟨j, rfl⟩ : ∃ j, r = y0 + 1 + j := ⟨r - y0 - 1, by omega⟩
        have e1 : y0 + 1 + j - y0 = j + 1 := by omega
        have e2 : y0 + 1 + j - (y0 + 1) = j := by omega
        rw [e1, e2, List.getD_cons_succ]
        have e3 : decide (y0 + 1 + j < y0 + (b :: bs).length) = decide (y0 + 1 + j < y0 + 1 + bs.length) :=
          decide_eq_decide.2 (by rw [List.length_cons]; omega)
        rw [e3]
        simp [hx, hr, h1]
      · simp [hr, h1, show ¬ y0 + 1 ≤ r by omega]
  · simp [hx]

/-- No pixel of a sprite lies above its first row. -/
theorem spritePixel_above (x0 y0 : Nat) (bs : List Byte) (c : Nat) {r : Nat} (h : r < y0) :
    spritePixel x0 y0 bs c r = false := by
  unfold spritePixel
  simp [show ¬ y0 ≤ r by omega]

/-- What drawing a sprite does (R161): each cell of the grid becomes its exclusive or with the sprite's pixel, and a
collision is a pixel on a cell that was set. -/
theorem drawRows_spec (x0 : Nat) : ∀ (bs : List Byte) (y0 : Nat) (d : Drawing),
    (∀ c r, c ≤ 63 → r ≤ 31 → Framebuffer.cell (drawRows x0 y0 bs d).fb c r =
      (Framebuffer.cell d.fb c r ^^ spritePixel x0 y0 bs c r)) ∧
    ((drawRows x0 y0 bs d).collision = true ↔ d.collision = true ∨
      ∃ c ≤ 63, ∃ r ≤ 31, spritePixel x0 y0 bs c r = true ∧ Framebuffer.cell d.fb c r = true)
  | [], y0, d => by
    have h0 : ∀ c r, spritePixel x0 y0 [] c r = false := by
      intro c r; unfold spritePixel; simp
    constructor
    · intro c r _ _; simp [drawRows, h0]
    · simp [drawRows, h0]
  | b :: bs, y0, d => by
    obtain ⟨rc, rk⟩ := drawRow_upto x0 y0 b d 8
    change (∀ c r, c ≤ 63 → r ≤ 31 → Framebuffer.cell (drawRow x0 y0 b d).fb c r = _) at rc
    change (drawRow x0 y0 b d).collision = true ↔ _ at rk
    obtain ⟨ihc, ihk⟩ := drawRows_spec x0 bs (y0 + 1) (drawRow x0 y0 b d)
    rw [drawRows]
    constructor
    · intro c r hc hr
      rw [ihc c r hc hr, rc c r hc hr, spritePixel_cons, Bool.xor_assoc]
    · rw [ihk, rk]
      constructor
      · rintro ((h | ⟨c, hc, hr, hp, hs⟩) | ⟨c, hc, r, hr, hp, hs⟩)
        · exact .inl h
        · refine .inr ⟨c, hc, y0, hr, ?_, hs⟩
          rw [spritePixel_cons, spritePixel_above _ _ _ _ (Nat.lt_succ_self y0)]; simp [hp]
        · have hne : r ≠ y0 := by
            rintro rfl; rw [spritePixel_above _ _ _ _ (Nat.lt_succ_self r)] at hp; exact absurd hp (by simp)
          refine .inr ⟨c, hc, r, hr, ?_, ?_⟩
          · rw [spritePixel_cons]; simp [hp, hne]
          · rw [rc c r hc hr] at hs; simpa [hne] using hs
      · rintro (h | ⟨c, hc, r, hr, hp, hs⟩)
        · exact .inl (.inl h)
        · rw [spritePixel_cons] at hp
          by_cases he : r = y0
          · subst he
            rw [spritePixel_above _ _ _ _ (Nat.lt_succ_self r)] at hp
            exact .inl (.inr ⟨c, hc, hr, by simpa using hp, hs⟩)
          · refine .inr ⟨c, hc, r, hr, by simpa [he] using hp, ?_⟩
            rw [rc c r hc hr]; simpa [he] using hs

end Sys2Proof.Machine
end

