-- ==== Sys2Proof/Laws/Encoding.lean ====
section
/-! SUPPORT. The fields of an assembled opcode, and its bits under the masks of the opcode table. -/

namespace Sys2Proof

/-- A register field read back. -/
@[simp] theorem regOf_regBits (x : Reg) : regOf (regBits x) = x := rfl

/-- A register field written back. -/
@[simp] theorem regBits_regOf (d : Nibble) : regBits (regOf d) = d := rfl

/-! ## The fields of each format -/

@[simp] theorem fieldFam_asmNNN (f : Nibble) (nnn : Addr) : fieldFam (asmNNN f nnn) = f := by
  apply BitVec.eq_of_getLsbD_eq; intro k hk
  simp only [fieldFam, asmNNN, BitVec.getLsbD_extractLsb', BitVec.getLsbD_append]
  simp [show ¬ 12 + k < 12 by omega, hk]

@[simp] theorem fieldNNN_asmNNN (f : Nibble) (nnn : Addr) : fieldNNN (asmNNN f nnn) = nnn := by
  apply BitVec.eq_of_getLsbD_eq; intro k hk
  simp only [fieldNNN, asmNNN, BitVec.getLsbD_extractLsb', BitVec.getLsbD_append]
  simp [hk]

@[simp] theorem fieldFam_asmXNN (f : Nibble) (x : Reg) (nn : Byte) : fieldFam (asmXNN f x nn) = f := by
  apply BitVec.eq_of_getLsbD_eq; intro k hk
  simp only [fieldFam, asmXNN, BitVec.getLsbD_extractLsb', BitVec.getLsbD_append]
  simp [hk, show ¬ 12 + k < 8 by omega, show ¬ 12 + k - 8 < 4 by omega, show 12 + k - 8 - 4 = k by omega]

@[simp] theorem fieldX_asmXNN (f : Nibble) (x : Reg) (nn : Byte) : fieldX (asmXNN f x nn) = regBits x := by
  apply BitVec.eq_of_getLsbD_eq; intro k hk
  simp only [fieldX, asmXNN, BitVec.getLsbD_extractLsb', BitVec.getLsbD_append]
  simp [hk, show ¬ 8 + k < 8 by omega, show 8 + k - 8 = k by omega]

@[simp] theorem fieldNN_asmXNN (f : Nibble) (x : Reg) (nn : Byte) : fieldNN (asmXNN f x nn) = nn := by
  apply BitVec.eq_of_getLsbD_eq; intro k hk
  simp only [fieldNN, asmXNN, BitVec.getLsbD_extractLsb', BitVec.getLsbD_append]
  simp [hk]

@[simp] theorem fieldFam_asmXY (f : Nibble) (x y : Reg) (d : Nibble) : fieldFam (asmXY f x y d) = f := by
  apply BitVec.eq_of_getLsbD_eq; intro k hk
  simp only [fieldFam, asmXY, asm4, BitVec.getLsbD_extractLsb', BitVec.getLsbD_append]
  simp [hk, show ¬ 12 + k < 4 by omega, show ¬ 12 + k - 4 < 4 by omega, show ¬ 12 + k - 4 - 4 < 4 by omega,
    show 12 + k - 4 - 4 - 4 = k by omega]

@[simp] theorem fieldX_asmXY (f : Nibble) (x y : Reg) (d : Nibble) : fieldX (asmXY f x y d) = regBits x := by
  apply BitVec.eq_of_getLsbD_eq; intro k hk
  simp only [fieldX, asmXY, asm4, BitVec.getLsbD_extractLsb', BitVec.getLsbD_append]
  simp [hk, show ¬ 8 + k < 4 by omega, show ¬ 8 + k - 4 < 4 by omega, show 8 + k - 4 - 4 = k by omega]

@[simp] theorem fieldY_asmXY (f : Nibble) (x y : Reg) (d : Nibble) : fieldY (asmXY f x y d) = regBits y := by
  apply BitVec.eq_of_getLsbD_eq; intro k hk
  simp only [fieldY, asmXY, asm4, BitVec.getLsbD_extractLsb', BitVec.getLsbD_append]
  simp [hk, show ¬ 4 + k < 4 by omega, show 4 + k - 4 = k by omega]

@[simp] theorem fieldN_asmXY (f : Nibble) (x y : Reg) (d : Nibble) : fieldN (asmXY f x y d) = d := by
  apply BitVec.eq_of_getLsbD_eq; intro k hk
  simp only [fieldN, asmXY, asm4, BitVec.getLsbD_extractLsb', BitVec.getLsbD_append]
  simp [hk]

/-! ## An opcode is assembled from its fields -/

theorem asmNNN_fields (op : Word) : asmNNN (fieldFam op) (fieldNNN op) = op := by
  apply BitVec.eq_of_getLsbD_eq; intro k hk
  simp only [fieldFam, fieldNNN, asmNNN, BitVec.getLsbD_extractLsb', BitVec.getLsbD_append]
  by_cases h : k < 12
  · simp [h]
  · simp [h, show k - 12 < 4 by omega, show 12 + (k - 12) = k by omega]

theorem asmXNN_fields (op : Word) : asmXNN (fieldFam op) (regOf (fieldX op)) (fieldNN op) = op := by
  apply BitVec.eq_of_getLsbD_eq; intro k hk
  simp only [fieldFam, fieldX, fieldNN, asmXNN, regBits_regOf, BitVec.getLsbD_extractLsb', BitVec.getLsbD_append]
  by_cases h : k < 8
  · simp [h]
  · by_cases h2 : k - 8 < 4
    · simp [h, h2, show 8 + (k - 8) = k by omega]
    · simp [h, h2, show k - 8 - 4 < 4 by omega, show 12 + (k - 8 - 4) = k by omega]

theorem asmXY_fields (op : Word) :
    asmXY (fieldFam op) (regOf (fieldX op)) (regOf (fieldY op)) (fieldN op) = op := by
  apply BitVec.eq_of_getLsbD_eq; intro k hk
  simp only [fieldFam, fieldX, fieldY, fieldN, asmXY, asm4, regBits_regOf, BitVec.getLsbD_extractLsb',
    BitVec.getLsbD_append]
  by_cases h : k < 4
  · simp [h]
  · by_cases h2 : k - 4 < 4
    · simp [h, h2, show 4 + (k - 4) = k by omega]
    · by_cases h3 : k - 4 - 4 < 4
      · simp [h, h2, h3, show 8 + (k - 4 - 4) = k by omega]
      · simp [h, h2, h3, show k - 4 - 4 - 4 < 4 by omega, show 12 + (k - 4 - 4 - 4) = k by omega]

/-! ## Opcodes under the masks of R64 -/

theorem asmNNN_mask (f : Nibble) (nnn : Addr) : asmNNN f nnn &&& 0xF000#16 = f ++ 0#12 := by
  apply BitVec.eq_of_getLsbD_eq; intro k hk
  simp only [asmNNN, BitVec.getLsbD_and, BitVec.getLsbD_append]
  interval_cases k <;> simp

theorem asmXNN_mask (f : Nibble) (x : Reg) (nn : Byte) : asmXNN f x nn &&& 0xF000#16 = f ++ 0#12 := by
  apply BitVec.eq_of_getLsbD_eq; intro k hk
  simp only [asmXNN, BitVec.getLsbD_and, BitVec.getLsbD_append]
  interval_cases k <;> simp

theorem asmXNN_mask_low (f : Nibble) (x : Reg) (nn : Byte) :
    asmXNN f x nn &&& 0xF0FF#16 = f ++ 0#4 ++ nn := by
  apply BitVec.eq_of_getLsbD_eq; intro k hk
  simp only [asmXNN, BitVec.getLsbD_and, BitVec.getLsbD_append]
  interval_cases k <;> simp

theorem asmXY_mask (f : Nibble) (x y : Reg) (d : Nibble) :
    asmXY f x y d &&& 0xF000#16 = f ++ 0#12 := by
  apply BitVec.eq_of_getLsbD_eq; intro k hk
  simp only [asmXY, asm4, BitVec.getLsbD_and, BitVec.getLsbD_append]
  interval_cases k <;> simp

theorem asmXY_mask_low (f : Nibble) (x y : Reg) (d : Nibble) :
    asmXY f x y d &&& 0xF00F#16 = f ++ 0#8 ++ d := by
  apply BitVec.eq_of_getLsbD_eq; intro k hk
  simp only [asmXY, asm4, BitVec.getLsbD_and, BitVec.getLsbD_append]
  interval_cases k <;> simp

end Sys2Proof
end

