-- ==== Sys2Proof/Laws/Memory.lean ====
section
/-! SUPPORT. The laws of memory: read after write, and that every operation keeps the canonical form. -/

namespace Sys2Proof.Machine

/-- Memory right after reset lists nothing and is in canonical form. -/
theorem Memory.wf_nil : Memory.wf [] = true := rfl

/-- What a canonical memory with a first cell is. -/
theorem Memory.wfFrom_cons (lo k : Nat) (b : Byte) (m : Memory) :
    Memory.wfFrom lo ((k, b) :: m) = true ↔
      lo ≤ k ∧ k < Config.memSize ∧ b ≠ resetByte k ∧ Memory.wfFrom (k + 1) m = true := by
  simp [Memory.wfFrom, and_assoc]

/-- A canonical memory may be asked to start lower. -/
theorem Memory.wfFrom_mono {lo lo' : Nat} (h : lo' ≤ lo) : ∀ {m : Memory},
    Memory.wfFrom lo m = true → Memory.wfFrom lo' m = true
  | [], _ => rfl
  | (k, b) :: m, hm => by
    rw [Memory.wfFrom_cons] at hm ⊢
    exact ⟨h.trans hm.1, hm.2⟩

/-- An address below every cell reads as its reset byte. -/
theorem Memory.byteAt_below : ∀ {m : Memory} {lo a : Nat}, Memory.wfFrom lo m = true → a < lo →
    m.byteAt a = resetByte a
  | [], _, _, _, _ => rfl
  | (k, b) :: m, lo, a, hm, ha => by
    rw [Memory.wfFrom_cons] at hm
    have hne : a ≠ k := by omega
    simp only [Memory.byteAt, hne, if_false]
    exact Memory.byteAt_below hm.2.2.2 (by omega)

/-- Reading past a cell put in front. -/
theorem Memory.byteAt_consCell_ne {a a' : Nat} (h : a' ≠ a) (b : Byte) (m : Memory) :
    (Memory.consCell a b m).byteAt a' = m.byteAt a' := by
  unfold Memory.consCell
  split <;> simp [Memory.byteAt, h]

/-- Reading the address of a cell put in front of higher ones. -/
theorem Memory.byteAt_consCell_self {a : Nat} (b : Byte) {m : Memory} (hm : Memory.wfFrom (a + 1) m = true) :
    (Memory.consCell a b m).byteAt a = b := by
  unfold Memory.consCell
  split
  · next h => rw [Memory.byteAt_below hm (Nat.lt_succ_self a), h]
  · simp [Memory.byteAt]

/-- A cell put in front of higher ones keeps the canonical form. -/
theorem Memory.wfFrom_consCell {lo a : Nat} (h : lo ≤ a) (ha : a < Config.memSize) (b : Byte) {m : Memory}
    (hm : Memory.wfFrom (a + 1) m = true) : Memory.wfFrom lo (Memory.consCell a b m) = true := by
  unfold Memory.consCell
  split
  · exact Memory.wfFrom_mono (by omega) hm
  · next hb => exact (Memory.wfFrom_cons ..).2 ⟨h, ha, hb, hm⟩

/-- A write leaves every other address alone, in any memory (R48). -/
theorem Memory.byteAt_setByte_ne : ∀ (m : Memory) {a a' : Nat} (b : Byte), a' ≠ a →
    (m.setByte a b).byteAt a' = m.byteAt a'
  | [], a, a', b, h => Memory.byteAt_consCell_ne h b []
  | (k, c) :: m, a, a', b, h => by
    unfold Memory.setByte
    split
    · exact Memory.byteAt_consCell_ne h b _
    · split
      · next hk => subst hk; simp [Memory.byteAt_consCell_ne h, Memory.byteAt, h]
      · simp only [Memory.byteAt, Memory.byteAt_setByte_ne m b h]

/-- A byte reads as what was last written to it (R48). -/
theorem Memory.byteAt_setByte_self_from : ∀ {m : Memory} {lo a : Nat} (b : Byte), Memory.wfFrom lo m = true →
    (m.setByte a b).byteAt a = b
  | [], _, a, b, _ => Memory.byteAt_consCell_self b rfl
  | (k, c) :: m, lo, a, b, hm => by
    have hc := (Memory.wfFrom_cons ..).1 hm
    unfold Memory.setByte
    split
    · next hk => exact Memory.byteAt_consCell_self b ((Memory.wfFrom_cons ..).2 ⟨hk, hc.2⟩)
    · split
      · next hk => subst hk; exact Memory.byteAt_consCell_self b hc.2.2.2
      · next hk => simp only [Memory.byteAt, hk, if_false]; exact Memory.byteAt_setByte_self_from b hc.2.2.2

/-- A write of an existing address keeps the canonical form, from any start not above it. -/
theorem Memory.wfFrom_setByte : ∀ {m : Memory} {lo a : Nat} (b : Byte), lo ≤ a → a < Config.memSize →
    Memory.wfFrom lo m = true → Memory.wfFrom lo (m.setByte a b) = true
  | [], _, _, b, h, ha, _ => Memory.wfFrom_consCell h ha b rfl
  | (k, c) :: m, lo, a, b, h, ha, hm => by
    have hc := (Memory.wfFrom_cons ..).1 hm
    unfold Memory.setByte
    split
    · next hk => exact Memory.wfFrom_consCell h ha b ((Memory.wfFrom_cons ..).2 ⟨hk, hc.2⟩)
    · split
      · next hk => subst hk; exact Memory.wfFrom_consCell h ha b hc.2.2.2
      · exact (Memory.wfFrom_cons ..).2
          ⟨hc.1, hc.2.1, hc.2.2.1, Memory.wfFrom_setByte b (by omega) ha hc.2.2.2⟩

/-- Read after write, at any address (R48). -/
theorem Memory.byteAt_setByte {m : Memory} (hm : m.wf = true) (a a' : Nat) (b : Byte) :
    (m.setByte a b).byteAt a' = if a' = a then b else m.byteAt a' := by
  split
  · next h => subst h; exact Memory.byteAt_setByte_self_from b hm
  · next h => exact Memory.byteAt_setByte_ne m b h

/-- A write of an existing address keeps the canonical form. -/
theorem Memory.wf_setByte {m : Memory} (hm : m.wf = true) {a : Nat} (ha : a < Config.memSize) (b : Byte) :
    (m.setByte a b).wf = true :=
  Memory.wfFrom_setByte b (Nat.zero_le a) ha hm

/-- Writing a run of existing addresses keeps the canonical form. -/
theorem Memory.wf_setBytes : ∀ {m : Memory} (bs : List Byte) {a : Nat}, m.wf = true →
    a + bs.length ≤ Config.memSize → (m.setBytes a bs).wf = true
  | _, [], _, hm, _ => hm
  | _, b :: bs, a, hm, h => by
    simp only [List.length_cons] at h
    exact Memory.wf_setBytes bs (Memory.wf_setByte hm (by omega) b) (by omega)

/-- A run of bytes leaves every address outside it alone, in any memory. -/
theorem Memory.byteAt_setBytes_outside : ∀ (m : Memory) (bs : List Byte) {a a' : Nat},
    a' < a ∨ a + bs.length ≤ a' → (m.setBytes a bs).byteAt a' = m.byteAt a'
  | _, [], _, _, _ => rfl
  | m, b :: bs, a, a', h => by
    simp only [List.length_cons] at h
    rw [Memory.setBytes, Memory.byteAt_setBytes_outside _ bs (by omega), Memory.byteAt_setByte_ne m b (by omega)]

/-- The k-th byte of a run stands at its address (R43). -/
theorem Memory.byteAt_setBytes_inside : ∀ {m : Memory} (bs : List Byte) {a : Nat} (k : Nat), m.wf = true →
    a + bs.length ≤ Config.memSize → k < bs.length → (m.setBytes a bs).byteAt (a + k) = bs.getD k 0
  | _, [], _, _, _, _, hk => absurd hk (Nat.not_lt_zero _)
  | m, b :: bs, a, 0, hm, _, _ => by
    rw [Memory.setBytes, Memory.byteAt_setBytes_outside _ bs (by omega), Nat.add_zero, Memory.byteAt_setByte hm]
    simp
  | m, b :: bs, a, k + 1, hm, h, hk => by
    simp only [List.length_cons] at h hk
    have := Memory.byteAt_setBytes_inside bs (a := a + 1) k (Memory.wf_setByte hm (a := a) (by omega) b)
      (by omega) (by omega)
    rw [Memory.setBytes, show a + (k + 1) = a + 1 + k by omega, this]
    simp

/-- What a load can do: give the bytes at ascending addresses, all of which exist, or give nothing (R46). -/
theorem Memory.load_eq_some_iff (m : Memory) (a n : Nat) (bs : List Byte) :
    m.load a n = some bs ↔ (n = 0 ∨ a + n ≤ Config.memSize) ∧ bs = (List.range n).map fun k => m.byteAt (a + k) := by
  unfold Memory.load inMemory
  simp only [decide_eq_true_eq]
  split
  · next h => simp [h, eq_comm]
  · next h => simp [h]

/-- When a load gives nothing (R46). -/
theorem Memory.load_eq_none_iff (m : Memory) (a n : Nat) :
    m.load a n = none ↔ n ≠ 0 ∧ Config.memSize < a + n := by
  unfold Memory.load inMemory
  simp only [decide_eq_true_eq]
  split
  · next h => simp; omega
  · next h => simp; omega

/-- The bytes a load gives, by position (R43). -/
theorem Memory.getD_of_load {m : Memory} {a n : Nat} {bs : List Byte} (h : m.load a n = some bs) (k : Nat) (d : Byte) :
    bs.getD k d = if k < n then m.byteAt (a + k) else d := by
  obtain ⟨-, rfl⟩ := (Memory.load_eq_some_iff ..).1 h
  by_cases hk : k < n <;> simp [List.getD_eq_getElem?_getD, hk]

/-- What a store can do: write every byte, each at an address that exists, or write nothing (R46). -/
theorem Memory.store_eq_some_iff (m : Memory) (a : Nat) (bs : List Byte) (m' : Memory) :
    m.store a bs = some m' ↔ (bs.length = 0 ∨ a + bs.length ≤ Config.memSize) ∧ m' = m.setBytes a bs := by
  unfold Memory.store inMemory
  by_cases h : bs.length = 0 ∨ a + bs.length ≤ Config.memSize
  · rw [if_pos (decide_eq_true h), Option.some_inj]; exact ⟨fun e => ⟨h, e.symm⟩, fun e => e.2.symm⟩
  · rw [if_neg (by simpa using h)]; exact ⟨fun e => (nomatch e), fun e => absurd e.1 h⟩

/-- When a store writes nothing (R46). -/
theorem Memory.store_eq_none_iff (m : Memory) (a : Nat) (bs : List Byte) :
    m.store a bs = none ↔ bs.length ≠ 0 ∧ Config.memSize < a + bs.length := by
  unfold Memory.store inMemory
  by_cases h : bs.length = 0 ∨ a + bs.length ≤ Config.memSize
  · rw [if_pos (decide_eq_true h)]; exact ⟨fun e => (nomatch e), fun e => absurd h (by omega)⟩
  · rw [if_neg (by simpa using h)]; exact ⟨fun _ => by omega, fun _ => rfl⟩

/-- A store keeps the canonical form. -/
theorem Memory.wf_of_store {m m' : Memory} {a : Nat} {bs : List Byte} (hm : m.wf = true)
    (h : m.store a bs = some m') : m'.wf = true := by
  obtain ⟨hr, rfl⟩ := (Memory.store_eq_some_iff ..).1 h
  rcases hr with h | h
  · rw [List.length_eq_zero_iff.1 h]; exact hm
  · exact Memory.wf_setBytes bs hm h

end Sys2Proof.Machine
end

