-- ==== Sys2Proof/Laws/State.lean ====
section
/-! SUPPORT. One lemma for each field of each update of State, so that no proof unfolds a record update. -/

namespace Sys2Proof.Machine

variable (s : State)

/-! ### setReg -/

@[simp] theorem State.setReg_mem (x : Reg) (b : Byte) : (s.setReg x b).mem = s.mem := rfl
@[simp] theorem State.setReg_v (x : Reg) (b : Byte) : (s.setReg x b).v = s.v.set x b := rfl
@[simp] theorem State.setReg_i (x : Reg) (b : Byte) : (s.setReg x b).i = s.i := rfl
@[simp] theorem State.setReg_pc (x : Reg) (b : Byte) : (s.setReg x b).pc = s.pc := rfl
@[simp] theorem State.setReg_stack (x : Reg) (b : Byte) : (s.setReg x b).stack = s.stack := rfl
@[simp] theorem State.setReg_sp (x : Reg) (b : Byte) : (s.setReg x b).sp = s.sp := rfl
@[simp] theorem State.setReg_dt (x : Reg) (b : Byte) : (s.setReg x b).dt = s.dt := rfl
@[simp] theorem State.setReg_st (x : Reg) (b : Byte) : (s.setReg x b).st = s.st := rfl
@[simp] theorem State.setReg_fb (x : Reg) (b : Byte) : (s.setReg x b).fb = s.fb := rfl
@[simp] theorem State.setReg_key (x : Reg) (b : Byte) : (s.setReg x b).key = s.key := rfl
@[simp] theorem State.setReg_run (x : Reg) (b : Byte) : (s.setReg x b).run = s.run := rfl
@[simp] theorem State.setReg_fault (x : Reg) (b : Byte) : (s.setReg x b).fault = s.fault := rfl
@[simp] theorem State.setReg_draws (x : Reg) (b : Byte) : (s.setReg x b).draws = s.draws := rfl

/-! ### setFlag -/

@[simp] theorem State.setFlag_mem (f : Bool) : (s.setFlag f).mem = s.mem := rfl
@[simp] theorem State.setFlag_v (f : Bool) : (s.setFlag f).v = s.v.set regVF (if f then 1 else 0) := rfl
@[simp] theorem State.setFlag_i (f : Bool) : (s.setFlag f).i = s.i := rfl
@[simp] theorem State.setFlag_pc (f : Bool) : (s.setFlag f).pc = s.pc := rfl
@[simp] theorem State.setFlag_stack (f : Bool) : (s.setFlag f).stack = s.stack := rfl
@[simp] theorem State.setFlag_sp (f : Bool) : (s.setFlag f).sp = s.sp := rfl
@[simp] theorem State.setFlag_dt (f : Bool) : (s.setFlag f).dt = s.dt := rfl
@[simp] theorem State.setFlag_st (f : Bool) : (s.setFlag f).st = s.st := rfl
@[simp] theorem State.setFlag_fb (f : Bool) : (s.setFlag f).fb = s.fb := rfl
@[simp] theorem State.setFlag_key (f : Bool) : (s.setFlag f).key = s.key := rfl
@[simp] theorem State.setFlag_run (f : Bool) : (s.setFlag f).run = s.run := rfl
@[simp] theorem State.setFlag_fault (f : Bool) : (s.setFlag f).fault = s.fault := rfl
@[simp] theorem State.setFlag_draws (f : Bool) : (s.setFlag f).draws = s.draws := rfl

/-! ### setFlagThenReg -/

@[simp] theorem State.setFlagThenReg_mem (f : Bool) (x : Reg) (b : Byte) : (s.setFlagThenReg f x b).mem = s.mem := rfl
@[simp] theorem State.setFlagThenReg_v (f : Bool) (x : Reg) (b : Byte) : (s.setFlagThenReg f x b).v = (s.v.set regVF (if f then 1 else 0)).set x b := rfl
@[simp] theorem State.setFlagThenReg_i (f : Bool) (x : Reg) (b : Byte) : (s.setFlagThenReg f x b).i = s.i := rfl
@[simp] theorem State.setFlagThenReg_pc (f : Bool) (x : Reg) (b : Byte) : (s.setFlagThenReg f x b).pc = s.pc := rfl
@[simp] theorem State.setFlagThenReg_stack (f : Bool) (x : Reg) (b : Byte) : (s.setFlagThenReg f x b).stack = s.stack := rfl
@[simp] theorem State.setFlagThenReg_sp (f : Bool) (x : Reg) (b : Byte) : (s.setFlagThenReg f x b).sp = s.sp := rfl
@[simp] theorem State.setFlagThenReg_dt (f : Bool) (x : Reg) (b : Byte) : (s.setFlagThenReg f x b).dt = s.dt := rfl
@[simp] theorem State.setFlagThenReg_st (f : Bool) (x : Reg) (b : Byte) : (s.setFlagThenReg f x b).st = s.st := rfl
@[simp] theorem State.setFlagThenReg_fb (f : Bool) (x : Reg) (b : Byte) : (s.setFlagThenReg f x b).fb = s.fb := rfl
@[simp] theorem State.setFlagThenReg_key (f : Bool) (x : Reg) (b : Byte) : (s.setFlagThenReg f x b).key = s.key := rfl
@[simp] theorem State.setFlagThenReg_run (f : Bool) (x : Reg) (b : Byte) : (s.setFlagThenReg f x b).run = s.run := rfl
@[simp] theorem State.setFlagThenReg_fault (f : Bool) (x : Reg) (b : Byte) : (s.setFlagThenReg f x b).fault = s.fault := rfl
@[simp] theorem State.setFlagThenReg_draws (f : Bool) (x : Reg) (b : Byte) : (s.setFlagThenReg f x b).draws = s.draws := rfl

/-! ### setRegBlock -/

@[simp] theorem State.setRegBlock_mem (bs : List Byte) : (s.setRegBlock bs).mem = s.mem := rfl
@[simp] theorem State.setRegBlock_v (bs : List Byte) : (s.setRegBlock bs).v = Vector.ofFn fun r : Fin 16 => bs.getD r.val (s.v.get r) := rfl
@[simp] theorem State.setRegBlock_i (bs : List Byte) : (s.setRegBlock bs).i = s.i := rfl
@[simp] theorem State.setRegBlock_pc (bs : List Byte) : (s.setRegBlock bs).pc = s.pc := rfl
@[simp] theorem State.setRegBlock_stack (bs : List Byte) : (s.setRegBlock bs).stack = s.stack := rfl
@[simp] theorem State.setRegBlock_sp (bs : List Byte) : (s.setRegBlock bs).sp = s.sp := rfl
@[simp] theorem State.setRegBlock_dt (bs : List Byte) : (s.setRegBlock bs).dt = s.dt := rfl
@[simp] theorem State.setRegBlock_st (bs : List Byte) : (s.setRegBlock bs).st = s.st := rfl
@[simp] theorem State.setRegBlock_fb (bs : List Byte) : (s.setRegBlock bs).fb = s.fb := rfl
@[simp] theorem State.setRegBlock_key (bs : List Byte) : (s.setRegBlock bs).key = s.key := rfl
@[simp] theorem State.setRegBlock_run (bs : List Byte) : (s.setRegBlock bs).run = s.run := rfl
@[simp] theorem State.setRegBlock_fault (bs : List Byte) : (s.setRegBlock bs).fault = s.fault := rfl
@[simp] theorem State.setRegBlock_draws (bs : List Byte) : (s.setRegBlock bs).draws = s.draws := rfl

/-! ### setI -/

@[simp] theorem State.setI_mem (w : Word) : (s.setI w).mem = s.mem := rfl
@[simp] theorem State.setI_v (w : Word) : (s.setI w).v = s.v := rfl
@[simp] theorem State.setI_i (w : Word) : (s.setI w).i = w := rfl
@[simp] theorem State.setI_pc (w : Word) : (s.setI w).pc = s.pc := rfl
@[simp] theorem State.setI_stack (w : Word) : (s.setI w).stack = s.stack := rfl
@[simp] theorem State.setI_sp (w : Word) : (s.setI w).sp = s.sp := rfl
@[simp] theorem State.setI_dt (w : Word) : (s.setI w).dt = s.dt := rfl
@[simp] theorem State.setI_st (w : Word) : (s.setI w).st = s.st := rfl
@[simp] theorem State.setI_fb (w : Word) : (s.setI w).fb = s.fb := rfl
@[simp] theorem State.setI_key (w : Word) : (s.setI w).key = s.key := rfl
@[simp] theorem State.setI_run (w : Word) : (s.setI w).run = s.run := rfl
@[simp] theorem State.setI_fault (w : Word) : (s.setI w).fault = s.fault := rfl
@[simp] theorem State.setI_draws (w : Word) : (s.setI w).draws = s.draws := rfl

/-! ### setPc -/

@[simp] theorem State.setPc_mem (w : Word) : (s.setPc w).mem = s.mem := rfl
@[simp] theorem State.setPc_v (w : Word) : (s.setPc w).v = s.v := rfl
@[simp] theorem State.setPc_i (w : Word) : (s.setPc w).i = s.i := rfl
@[simp] theorem State.setPc_pc (w : Word) : (s.setPc w).pc = w := rfl
@[simp] theorem State.setPc_stack (w : Word) : (s.setPc w).stack = s.stack := rfl
@[simp] theorem State.setPc_sp (w : Word) : (s.setPc w).sp = s.sp := rfl
@[simp] theorem State.setPc_dt (w : Word) : (s.setPc w).dt = s.dt := rfl
@[simp] theorem State.setPc_st (w : Word) : (s.setPc w).st = s.st := rfl
@[simp] theorem State.setPc_fb (w : Word) : (s.setPc w).fb = s.fb := rfl
@[simp] theorem State.setPc_key (w : Word) : (s.setPc w).key = s.key := rfl
@[simp] theorem State.setPc_run (w : Word) : (s.setPc w).run = s.run := rfl
@[simp] theorem State.setPc_fault (w : Word) : (s.setPc w).fault = s.fault := rfl
@[simp] theorem State.setPc_draws (w : Word) : (s.setPc w).draws = s.draws := rfl

/-! ### advancePc -/

@[simp] theorem State.advancePc_mem : (s.advancePc).mem = s.mem := rfl
@[simp] theorem State.advancePc_v : (s.advancePc).v = s.v := rfl
@[simp] theorem State.advancePc_i : (s.advancePc).i = s.i := rfl
@[simp] theorem State.advancePc_pc : (s.advancePc).pc = s.pc + 2 := rfl
@[simp] theorem State.advancePc_stack : (s.advancePc).stack = s.stack := rfl
@[simp] theorem State.advancePc_sp : (s.advancePc).sp = s.sp := rfl
@[simp] theorem State.advancePc_dt : (s.advancePc).dt = s.dt := rfl
@[simp] theorem State.advancePc_st : (s.advancePc).st = s.st := rfl
@[simp] theorem State.advancePc_fb : (s.advancePc).fb = s.fb := rfl
@[simp] theorem State.advancePc_key : (s.advancePc).key = s.key := rfl
@[simp] theorem State.advancePc_run : (s.advancePc).run = s.run := rfl
@[simp] theorem State.advancePc_fault : (s.advancePc).fault = s.fault := rfl
@[simp] theorem State.advancePc_draws : (s.advancePc).draws = s.draws := rfl

/-! ### rewindPc -/

@[simp] theorem State.rewindPc_mem : (s.rewindPc).mem = s.mem := rfl
@[simp] theorem State.rewindPc_v : (s.rewindPc).v = s.v := rfl
@[simp] theorem State.rewindPc_i : (s.rewindPc).i = s.i := rfl
@[simp] theorem State.rewindPc_pc : (s.rewindPc).pc = s.pc - 2 := rfl
@[simp] theorem State.rewindPc_stack : (s.rewindPc).stack = s.stack := rfl
@[simp] theorem State.rewindPc_sp : (s.rewindPc).sp = s.sp := rfl
@[simp] theorem State.rewindPc_dt : (s.rewindPc).dt = s.dt := rfl
@[simp] theorem State.rewindPc_st : (s.rewindPc).st = s.st := rfl
@[simp] theorem State.rewindPc_fb : (s.rewindPc).fb = s.fb := rfl
@[simp] theorem State.rewindPc_key : (s.rewindPc).key = s.key := rfl
@[simp] theorem State.rewindPc_run : (s.rewindPc).run = s.run := rfl
@[simp] theorem State.rewindPc_fault : (s.rewindPc).fault = s.fault := rfl
@[simp] theorem State.rewindPc_draws : (s.rewindPc).draws = s.draws := rfl

/-! ### timerTick -/

@[simp] theorem State.timerTick_mem : (s.timerTick).mem = s.mem := rfl
@[simp] theorem State.timerTick_v : (s.timerTick).v = s.v := rfl
@[simp] theorem State.timerTick_i : (s.timerTick).i = s.i := rfl
@[simp] theorem State.timerTick_pc : (s.timerTick).pc = s.pc := rfl
@[simp] theorem State.timerTick_stack : (s.timerTick).stack = s.stack := rfl
@[simp] theorem State.timerTick_sp : (s.timerTick).sp = s.sp := rfl
@[simp] theorem State.timerTick_dt : (s.timerTick).dt = tickDown s.dt := rfl
@[simp] theorem State.timerTick_st : (s.timerTick).st = tickDown s.st := rfl
@[simp] theorem State.timerTick_fb : (s.timerTick).fb = s.fb := rfl
@[simp] theorem State.timerTick_key : (s.timerTick).key = s.key := rfl
@[simp] theorem State.timerTick_run : (s.timerTick).run = s.run := rfl
@[simp] theorem State.timerTick_fault : (s.timerTick).fault = s.fault := rfl
@[simp] theorem State.timerTick_draws : (s.timerTick).draws = s.draws := rfl

/-! ### raise -/

@[simp] theorem State.raise_mem (c : Fault) : (s.raise c).mem = s.mem := rfl
@[simp] theorem State.raise_v (c : Fault) : (s.raise c).v = s.v := rfl
@[simp] theorem State.raise_i (c : Fault) : (s.raise c).i = s.i := rfl
@[simp] theorem State.raise_pc (c : Fault) : (s.raise c).pc = s.pc := rfl
@[simp] theorem State.raise_stack (c : Fault) : (s.raise c).stack = s.stack := rfl
@[simp] theorem State.raise_sp (c : Fault) : (s.raise c).sp = s.sp := rfl
@[simp] theorem State.raise_dt (c : Fault) : (s.raise c).dt = s.dt := rfl
@[simp] theorem State.raise_st (c : Fault) : (s.raise c).st = s.st := rfl
@[simp] theorem State.raise_fb (c : Fault) : (s.raise c).fb = s.fb := rfl
@[simp] theorem State.raise_key (c : Fault) : (s.raise c).key = s.key := rfl
@[simp] theorem State.raise_run (c : Fault) : (s.raise c).run = s.run := rfl
@[simp] theorem State.raise_fault (c : Fault) : (s.raise c).fault = some c := rfl
@[simp] theorem State.raise_draws (c : Fault) : (s.raise c).draws = s.draws := rfl

/-! ### skipIf -/

@[simp] theorem State.skipIf_mem (c : Bool) : (s.skipIf c).mem = s.mem := by cases c <;> rfl
@[simp] theorem State.skipIf_v (c : Bool) : (s.skipIf c).v = s.v := by cases c <;> rfl
@[simp] theorem State.skipIf_i (c : Bool) : (s.skipIf c).i = s.i := by cases c <;> rfl
@[simp] theorem State.skipIf_pc (c : Bool) : (s.skipIf c).pc = (if c then s.pc + 2 else s.pc) := by cases c <;> rfl
@[simp] theorem State.skipIf_stack (c : Bool) : (s.skipIf c).stack = s.stack := by cases c <;> rfl
@[simp] theorem State.skipIf_sp (c : Bool) : (s.skipIf c).sp = s.sp := by cases c <;> rfl
@[simp] theorem State.skipIf_dt (c : Bool) : (s.skipIf c).dt = s.dt := by cases c <;> rfl
@[simp] theorem State.skipIf_st (c : Bool) : (s.skipIf c).st = s.st := by cases c <;> rfl
@[simp] theorem State.skipIf_fb (c : Bool) : (s.skipIf c).fb = s.fb := by cases c <;> rfl
@[simp] theorem State.skipIf_key (c : Bool) : (s.skipIf c).key = s.key := by cases c <;> rfl
@[simp] theorem State.skipIf_run (c : Bool) : (s.skipIf c).run = s.run := by cases c <;> rfl
@[simp] theorem State.skipIf_fault (c : Bool) : (s.skipIf c).fault = s.fault := by cases c <;> rfl
@[simp] theorem State.skipIf_draws (c : Bool) : (s.skipIf c).draws = s.draws := by cases c <;> rfl

/-! ### Reading a register after a write -/

/-- A register reads as what was written to it; the others keep their value. -/
@[simp] theorem State.reg_setReg (x r : Reg) (b : Byte) :
    (s.setReg x b).reg r = if r = x then b else s.reg r := by
  by_cases h : r = x
  · subst h; simp [State.reg, State.setReg, Vector.get_eq_getElem]
  · have h' : x.val ≠ r.val := fun e => h (Fin.ext e.symm)
    simp [State.reg, State.setReg, Vector.get_eq_getElem, h, Vector.getElem_set_ne _ _ h']

/-- Writing the flag writes VF with 0 or 1 and no other register. -/
@[simp] theorem State.reg_setFlag (r : Reg) (f : Bool) :
    (s.setFlag f).reg r = if r = regVF then (if f then 1 else 0) else s.reg r :=
  State.reg_setReg s regVF r _

/-- The result of a flag writer wins over its flag when both go to VF (R120). -/
@[simp] theorem State.reg_setFlagThenReg (x r : Reg) (f : Bool) (b : Byte) :
    (s.setFlagThenReg f x b).reg r = if r = x then b else if r = regVF then (if f then 1 else 0) else s.reg r := by
  simp [State.setFlagThenReg]

/-- A block write gives register r the r-th byte, if there is one (R145). -/
@[simp] theorem State.reg_setRegBlock (r : Reg) (bs : List Byte) :
    (s.setRegBlock bs).reg r = bs.getD r.val (s.reg r) := by
  simp [State.reg, State.setRegBlock, Vector.get_eq_getElem]

/-! ### Registers through the updates that leave them -/

@[simp] theorem State.reg_setI (w : Word) (r : Reg) : (s.setI w).reg r = s.reg r := rfl
@[simp] theorem State.reg_setPc (w : Word) (r : Reg) : (s.setPc w).reg r = s.reg r := rfl
@[simp] theorem State.reg_advancePc (r : Reg) : (s.advancePc).reg r = s.reg r := rfl
@[simp] theorem State.reg_rewindPc (r : Reg) : (s.rewindPc).reg r = s.reg r := rfl
@[simp] theorem State.reg_timerTick (r : Reg) : (s.timerTick).reg r = s.reg r := rfl
@[simp] theorem State.reg_raise (c : Fault) (r : Reg) : (s.raise c).reg r = s.reg r := rfl
@[simp] theorem State.reg_skipIf (c : Bool) (r : Reg) : (s.skipIf c).reg r = s.reg r := by cases c <;> rfl

/-- A register read looks at the field `v` only. -/
theorem State.reg_congr {s t : State} (h : t.v = s.v) (r : Reg) : t.reg r = s.reg r := by
  simp [State.reg, h]

/-- The k-th byte of the block V0 to Vx is Vk (R144). -/
theorem State.getD_regBlock (x r : Reg) (h : r ≤ x) : (s.regBlock x).getD r.val 0 = s.reg r := by
  have h1 : r.val < x.val + 1 := Nat.lt_succ_of_le h
  simp [State.regBlock, State.reg, Vector.get_eq_getElem, List.getD_eq_getElem?_getD, h1]

/-- The block V0 to Vx has x + 1 bytes (R144). -/
@[simp] theorem State.length_regBlock (x : Reg) : (s.regBlock x).length = x.val + 1 := by
  simp [State.regBlock]

/-- A timer falls by one and stays at 0 (R88). -/
theorem tickDown_toNat (t : Byte) : (tickDown t).toNat = t.toNat - 1 := by
  unfold tickDown
  split
  · next h => simp [h]
  · next h =>
    have : t.toNat ≠ 0 := fun e => h (BitVec.eq_of_toNat_eq (by simpa using e))
    have := t.isLt
    rw [BitVec.toNat_sub]; simp; omega

end Sys2Proof.Machine
end

