-- ==== Sys2Proof/Laws/Machine.lean ====
section
/-! SUPPORT. One lemma for each shared operation of the machine: the call stack, the keypad scan, the fetch, the phases
of a step and its commit. -/

namespace Sys2Proof.Machine

/-! ## Call stack -/

/-- What a push can do (R15, R102). -/
theorem State.push_eq_some {s t : State} {w : Word} (h : s.push w = some t) :
    ∃ hs : s.sp.val < 16, t = { s with stack := s.stack.set s.sp.val w hs, sp := ⟨s.sp.val + 1, Nat.succ_lt_succ hs⟩ } := by
  unfold State.push at h
  split at h
  · next hs => exact ⟨hs, (Option.some_inj.1 h).symm⟩
  · exact absurd h (by simp)

/-- A push succeeds exactly below the stack's capacity (R16). -/
theorem State.push_eq_none_iff (s : State) (w : Word) : s.push w = none ↔ s.sp = 16 := by
  unfold State.push
  have := s.sp.isLt
  split
  · next h => simp; exact fun e => by simp [e] at h
  · next h => simp; exact Fin.ext (by simp [Config.stackDepth] at h; simp; omega)

/-- What a pop can do (R15, R100). -/
theorem State.pop_eq_some {s t : State} {w : Word} (h : s.pop = some (w, t)) :
    ∃ (n : Nat) (hn : n < 16), s.sp.val = n + 1 ∧ w = s.stack.get ⟨n, hn⟩ ∧
      t = { s with sp := ⟨n, Nat.lt_succ_of_lt hn⟩ } := by
  unfold State.pop at h
  split at h
  · exact absurd h (by simp)
  · next n hn e =>
    simp only [Option.some.injEq, Prod.mk.injEq] at h
    exact ⟨n, Nat.lt_of_succ_lt_succ hn, by rw [e], h.1.symm, h.2.symm⟩

/-- A pop fails exactly on the empty stack (R16). -/
theorem State.pop_eq_none_iff (s : State) : s.pop = none ↔ s.sp = 0 := by
  unfold State.pop
  split
  · next e => simp [e]
  · next n hn e => simp only [reduceCtorEq, false_iff]; rw [e]; exact fun h => by simp [Fin.ext_iff] at h

/-! ## Keypad -/

/-- There is no key above 15 (R20). -/
theorem State.keyDown_lt {s : State} {k : Nat} (h : s.keyDown k = true) : k < 16 := by
  unfold State.keyDown at h
  split at h
  · assumption
  · exact absurd h (by simp)

/-- The key found by the scan is pressed, and none below it is (R175). -/
theorem State.lowestKey_eq_some_iff (s : State) (k : Nat) :
    s.lowestKey = some k ↔ s.keyDown k = true ∧ ∀ j < k, s.keyDown j = false := by
  unfold State.lowestKey
  rw [List.find?_range_eq_some]
  simp only [List.mem_range, Bool.not_eq_true']
  exact ⟨fun h => ⟨h.1, h.2.2⟩, fun h => ⟨h.1, State.keyDown_lt h.1, h.2⟩⟩

/-- The scan finds nothing exactly when no key is pressed (R175). -/
theorem State.lowestKey_eq_none_iff (s : State) : s.lowestKey = none ↔ ∀ k, s.keyDown k = false := by
  unfold State.lowestKey
  rw [List.find?_eq_none]
  simp only [List.mem_range, Bool.not_eq_true]
  exact ⟨fun h k => by
    by_cases hk : k < 16
    · exact h k hk
    · simp [State.keyDown, hk], fun h k _ => h k⟩

/-! ## Fetch and phases -/

/-- The fetch reads two bytes, big-endian, where both exist, and nothing elsewhere (R42, R84). -/
theorem State.fetch_eq (s : State) :
    s.fetch = if s.pc.toNat + 2 ≤ Config.memSize
      then some (opcodeOf (s.mem.byteAt s.pc.toNat) (s.mem.byteAt (s.pc.toNat + 1))) else none := by
  unfold State.fetch
  split
  · next hi lo h =>
    obtain ⟨hr, hb⟩ := (Memory.load_eq_some_iff ..).1 h
    simp [List.range_succ] at hb
    rw [if_pos (by omega), hb.1, hb.2]
  · next h =>
    rw [if_neg]
    intro hr
    exact h (s.mem.byteAt s.pc.toNat) (s.mem.byteAt (s.pc.toNat + 1)) ((Memory.load_eq_some_iff ..).2 ⟨Or.inr hr, by simp [List.range_succ]⟩)

/-- When a step runs the instruction `i` (R89). -/
theorem phase_eq_execute_iff (s : State) (i : Instr) :
    phase s = .execute i ↔ s.fault = none ∧ s.run = .running ∧ s.pc.toNat + 2 ≤ Config.memSize ∧
      decode (opcodeOf (s.mem.byteAt s.pc.toNat) (s.mem.byteAt (s.pc.toNat + 1))) = .instr i := by
  unfold phase
  rw [State.fetch_eq]
  cases hf : s.fault with
  | some c => simp
  | none =>
    by_cases hr : s.run = .running
    · by_cases hp : s.pc.toNat + 2 ≤ Config.memSize
      · have hm : ¬ Config.memSize ≤ s.pc.toNat := by omega
        simp only [hr, hp, hm, ne_eq, not_true_eq_false, if_false, if_true, true_and]
        cases hd : decode (opcodeOf (s.mem.byteAt s.pc.toNat) (s.mem.byteAt (s.pc.toNat + 1))) <;> simp
      · by_cases hm : Config.memSize ≤ s.pc.toNat <;> simp [hr, hp, hm]
    · simp [hr]

/-- In which states a step is in which phase (R89, R217). -/
theorem phase_cases (s : State) :
    (∃ c, phase s = .latched c ∧ s.fault = some c) ∨
    (phase s = .idle ∧ s.fault = none ∧ s.run ≠ .running) ∨
    (phase s = .halted ∧ s.fault = none ∧ s.run = .running ∧ 4096 ≤ s.pc.toNat) ∨
    (phase s = .fetchFault ∧ s.fault = none ∧ s.run = .running ∧ s.pc.toNat = 4095) ∨
    (s.fault = none ∧ s.run = .running ∧ s.pc.toNat + 2 ≤ 4096 ∧
      ((∃ op, phase s = .unrecognized s.pc op) ∨ ∃ i, phase s = .execute i)) := by
  unfold phase
  rw [State.fetch_eq]
  cases hf : s.fault with
  | some c => exact .inl ⟨c, rfl, rfl⟩
  | none =>
    by_cases hr : s.run = .running
    · by_cases hm : Config.memSize ≤ s.pc.toNat
      · simp only [Config.memSize] at hm; simp [hr, hm]
      · by_cases hp : s.pc.toNat + 2 ≤ Config.memSize
        · right; right; right; right
          simp only [hr, hm, hp, ne_eq, not_true_eq_false, if_false, if_true, true_and]
          cases hd : decode (opcodeOf (s.mem.byteAt s.pc.toNat) (s.mem.byteAt (s.pc.toNat + 1))) <;>
            simp_all
        · simp only [Config.memSize] at hm hp
          have : s.pc.toNat = 4095 := by omega
          simp [hr, this, Config.memSize]
    · simp [hr]

/-- A step whose execute phase raised nothing ends with the timer tick (R88). -/
theorem commit_next_of_none {s t : State} (h : t.fault = none) : commit s (.next t) = .next t.timerTick := by
  simp only [commit, h]

/-- A step whose execute phase raised a cause keeps only the cause (R214). -/
theorem commit_next_of_some {s t : State} {c : Fault} (h : t.fault = some c) :
    commit s (.next t) = .next (s.raise c) := by
  simp only [commit, h]

/-! ## Placing an opcode -/

/-- The two bytes of an opcode form it again (R42). -/
theorem opcodeOf_bytes (op : Word) : opcodeOf (highByte op) (lowByte op) = op := by
  apply BitVec.eq_of_getLsbD_eq
  intro k hk
  simp only [opcodeOf, highByte, lowByte, BitVec.getLsbD_append, BitVec.getLsbD_extractLsb']
  by_cases h : k < 8
  · simp [h]
  · simp [h, show k - 8 < 8 by omega, show 8 + (k - 8) = k by omega]

/-- The next step fetches the opcode that was placed (R42). -/
theorem State.fetch_placeOpcode {s : State} (hm : s.mem.wf = true) (op : Word) :
    (s.placeOpcode op).fetch = some op := by
  have key : ∀ pc : Word, pc.toNat + 2 ≤ Config.memSize →
      opcodeOf ((s.mem.setBytes pc.toNat [highByte op, lowByte op]).byteAt pc.toNat)
        ((s.mem.setBytes pc.toNat [highByte op, lowByte op]).byteAt (pc.toNat + 1)) = op := by
    intro pc h
    have h0 := Memory.byteAt_setBytes_inside [highByte op, lowByte op] (a := pc.toNat) 0 hm h (by simp)
    have h1 := Memory.byteAt_setBytes_inside [highByte op, lowByte op] (a := pc.toNat) 1 hm h (by simp)
    rw [Nat.add_zero] at h0
    rw [h0, h1]
    exact opcodeOf_bytes op
  rw [State.fetch_eq]
  unfold State.placeOpcode
  by_cases h : s.pc.toNat + 2 ≤ Config.memSize
  · simp only [h, if_true, key s.pc h]
  · have he : Config.entry.toNat + 2 ≤ Config.memSize := by decide
    simp only [h, if_false, he, if_true, key Config.entry he]

end Sys2Proof.Machine
end

