-- ==== Sys2Proof/Laws/PerInstr.lean ====
section
/-! SUPPORT. Statements about every instruction as syntax, one lemma for each constructor. -/

namespace Sys2Proof

/-- The opcode of an instruction lies in its own row of the opcode table: under the row's mask it is the row's match
(R64). -/
def Laws.EncodesInRow.Statement (i : Instr) : Prop := encode i &&& i.mask = i.pattern

theorem Laws.EncodesInRow.cls : Laws.EncodesInRow.Statement .cls := rfl

theorem Laws.EncodesInRow.ret : Laws.EncodesInRow.Statement .ret := rfl

theorem Laws.EncodesInRow.jp (nnn : Addr) : Laws.EncodesInRow.Statement (.jp nnn) := asmNNN_mask _ _

theorem Laws.EncodesInRow.call (nnn : Addr) : Laws.EncodesInRow.Statement (.call nnn) := asmNNN_mask _ _

theorem Laws.EncodesInRow.seImm (x : Reg) (nn : Byte) : Laws.EncodesInRow.Statement (.seImm x nn) := asmXNN_mask _ _ _

theorem Laws.EncodesInRow.sneImm (x : Reg) (nn : Byte) : Laws.EncodesInRow.Statement (.sneImm x nn) := asmXNN_mask _ _ _

theorem Laws.EncodesInRow.seReg (x y : Reg) : Laws.EncodesInRow.Statement (.seReg x y) := asmXY_mask_low _ _ _ _

theorem Laws.EncodesInRow.ldImm (x : Reg) (nn : Byte) : Laws.EncodesInRow.Statement (.ldImm x nn) := asmXNN_mask _ _ _

theorem Laws.EncodesInRow.addImm (x : Reg) (nn : Byte) : Laws.EncodesInRow.Statement (.addImm x nn) := asmXNN_mask _ _ _

theorem Laws.EncodesInRow.ldReg (x y : Reg) : Laws.EncodesInRow.Statement (.ldReg x y) := asmXY_mask_low _ _ _ _

theorem Laws.EncodesInRow.orReg (x y : Reg) : Laws.EncodesInRow.Statement (.orReg x y) := asmXY_mask_low _ _ _ _

theorem Laws.EncodesInRow.andReg (x y : Reg) : Laws.EncodesInRow.Statement (.andReg x y) := asmXY_mask_low _ _ _ _

theorem Laws.EncodesInRow.xorReg (x y : Reg) : Laws.EncodesInRow.Statement (.xorReg x y) := asmXY_mask_low _ _ _ _

theorem Laws.EncodesInRow.addReg (x y : Reg) : Laws.EncodesInRow.Statement (.addReg x y) := asmXY_mask_low _ _ _ _

theorem Laws.EncodesInRow.subReg (x y : Reg) : Laws.EncodesInRow.Statement (.subReg x y) := asmXY_mask_low _ _ _ _

theorem Laws.EncodesInRow.shr (x y : Reg) : Laws.EncodesInRow.Statement (.shr x y) := asmXY_mask_low _ _ _ _

theorem Laws.EncodesInRow.subn (x y : Reg) : Laws.EncodesInRow.Statement (.subn x y) := asmXY_mask_low _ _ _ _

theorem Laws.EncodesInRow.shl (x y : Reg) : Laws.EncodesInRow.Statement (.shl x y) := asmXY_mask_low _ _ _ _

theorem Laws.EncodesInRow.sneReg (x y : Reg) : Laws.EncodesInRow.Statement (.sneReg x y) := asmXY_mask_low _ _ _ _

theorem Laws.EncodesInRow.ldI (nnn : Addr) : Laws.EncodesInRow.Statement (.ldI nnn) := asmNNN_mask _ _

theorem Laws.EncodesInRow.jpV0 (nnn : Addr) : Laws.EncodesInRow.Statement (.jpV0 nnn) := asmNNN_mask _ _

theorem Laws.EncodesInRow.rnd (x : Reg) (nn : Byte) : Laws.EncodesInRow.Statement (.rnd x nn) := asmXNN_mask _ _ _

theorem Laws.EncodesInRow.drw (x y : Reg) (n : Nat) : Laws.EncodesInRow.Statement (.drw x y n) := asmXY_mask _ _ _ _

theorem Laws.EncodesInRow.skp (x : Reg) : Laws.EncodesInRow.Statement (.skp x) := asmXNN_mask_low _ _ _

theorem Laws.EncodesInRow.sknp (x : Reg) : Laws.EncodesInRow.Statement (.sknp x) := asmXNN_mask_low _ _ _

theorem Laws.EncodesInRow.ldDT (x : Reg) : Laws.EncodesInRow.Statement (.ldDT x) := asmXNN_mask_low _ _ _

theorem Laws.EncodesInRow.waitKey (x : Reg) : Laws.EncodesInRow.Statement (.waitKey x) := asmXNN_mask_low _ _ _

theorem Laws.EncodesInRow.setDT (x : Reg) : Laws.EncodesInRow.Statement (.setDT x) := asmXNN_mask_low _ _ _

theorem Laws.EncodesInRow.setST (x : Reg) : Laws.EncodesInRow.Statement (.setST x) := asmXNN_mask_low _ _ _

theorem Laws.EncodesInRow.addI (x : Reg) : Laws.EncodesInRow.Statement (.addI x) := asmXNN_mask_low _ _ _

theorem Laws.EncodesInRow.ldFont (x : Reg) : Laws.EncodesInRow.Statement (.ldFont x) := asmXNN_mask_low _ _ _

theorem Laws.EncodesInRow.bcd (x : Reg) : Laws.EncodesInRow.Statement (.bcd x) := asmXNN_mask_low _ _ _

theorem Laws.EncodesInRow.storeRegs (x : Reg) : Laws.EncodesInRow.Statement (.storeRegs x) := asmXNN_mask_low _ _ _

theorem Laws.EncodesInRow.loadRegs (x : Reg) : Laws.EncodesInRow.Statement (.loadRegs x) := asmXNN_mask_low _ _ _

end Sys2Proof
end

