-- ==== Sys2Proof/Tests/Slice0.lean ====
section
/-! SUPPORT. Small tests: ill-formed terms, one word of each row, single steps with results from 95_test_vectors.md, and
a witness for the hypotheses of each statement. -/

open Sys2Proof Sys2Proof.Machine

/-! ## Well-formedness -/

/-- A row count of 16 has no field to stand in (R63). -/
theorem test_illformed_drw : (Instr.drw 0 0 16).wellFormed = false := by decide

/-- The largest row count is well formed (R63). -/
theorem test_wellformed_drw : (Instr.drw 0 0 15).wellFormed = true := by decide

/-! ## Decoding: one word of each row, written nibble by nibble from R64 -/

theorem test_decode_cls : decode 0b0000_0000_1110_0000 = .instr .cls := by decide
theorem test_decode_ret : decode 0b0000_0000_1110_1110 = .instr .ret := by decide
theorem test_decode_jp : decode 0b0001_1010_1011_1100 = .instr (.jp 0xABC) := by decide
theorem test_decode_call : decode 0b0010_1010_1011_1100 = .instr (.call 0xABC) := by decide
theorem test_decode_seImm : decode 0b0011_0110_0001_0001 = .instr (.seImm 6 0x11) := by decide
theorem test_decode_sneImm : decode 0b0100_0011_1000_0001 = .instr (.sneImm 3 0x81) := by decide
theorem test_decode_seReg : decode 0b0101_0001_0010_0000 = .instr (.seReg 1 2) := by decide
theorem test_decode_ldImm : decode 0b0110_1111_0111_1011 = .instr (.ldImm 15 0x7B) := by decide
theorem test_decode_addImm : decode 0b0111_0101_1111_1110 = .instr (.addImm 5 0xFE) := by decide
theorem test_decode_ldReg : decode 0b1000_0001_0010_0000 = .instr (.ldReg 1 2) := by decide
theorem test_decode_orReg : decode 0b1000_0001_0010_0001 = .instr (.orReg 1 2) := by decide
theorem test_decode_andReg : decode 0b1000_0001_0010_0010 = .instr (.andReg 1 2) := by decide
theorem test_decode_xorReg : decode 0b1000_0001_0010_0011 = .instr (.xorReg 1 2) := by decide
theorem test_decode_addReg : decode 0b1000_0001_0010_0100 = .instr (.addReg 1 2) := by decide
theorem test_decode_subReg : decode 0b1000_0001_0010_0101 = .instr (.subReg 1 2) := by decide
theorem test_decode_shr : decode 0b1000_0001_0010_0110 = .instr (.shr 1 2) := by decide
theorem test_decode_subn : decode 0b1000_0001_0010_0111 = .instr (.subn 1 2) := by decide
theorem test_decode_shl : decode 0b1000_0001_0010_1110 = .instr (.shl 1 2) := by decide
theorem test_decode_sneReg : decode 0b1001_0001_0010_0000 = .instr (.sneReg 1 2) := by decide
theorem test_decode_ldI : decode 0b1010_0011_0000_0001 = .instr (.ldI 0x301) := by decide
theorem test_decode_jpV0 : decode 0b1011_0011_0000_0001 = .instr (.jpV0 0x301) := by decide
theorem test_decode_rnd : decode 0b1100_0011_0000_1111 = .instr (.rnd 3 0x0F) := by decide
theorem test_decode_drw : decode 0b1101_0001_0010_1111 = .instr (.drw 1 2 15) := by decide
theorem test_decode_skp : decode 0b1110_0010_1001_1110 = .instr (.skp 2) := by decide
theorem test_decode_sknp : decode 0b1110_0010_1010_0001 = .instr (.sknp 2) := by decide
theorem test_decode_ldDT : decode 0b1111_0010_0000_0111 = .instr (.ldDT 2) := by decide
theorem test_decode_waitKey : decode 0b1111_0010_0000_1010 = .instr (.waitKey 2) := by decide
theorem test_decode_setDT : decode 0b1111_0010_0001_0101 = .instr (.setDT 2) := by decide
theorem test_decode_setST : decode 0b1111_0010_0001_1000 = .instr (.setST 2) := by decide
theorem test_decode_addI : decode 0b1111_0010_0001_1110 = .instr (.addI 2) := by decide
theorem test_decode_ldFont : decode 0b1111_0010_0010_1001 = .instr (.ldFont 2) := by decide
theorem test_decode_bcd : decode 0b1111_0010_0011_0011 = .instr (.bcd 2) := by decide
theorem test_decode_storeRegs : decode 0b1111_0010_0101_0101 = .instr (.storeRegs 2) := by decide
theorem test_decode_loadRegs : decode 0b1111_0010_0110_0101 = .instr (.loadRegs 2) := by decide

/-- V40-2 and V40-3: words next to an instruction are none (R66, R67). -/
theorem test_decode_unrecognized :
    ([0x5011, 0x8008, 0xE09F, 0xF000, 0x0123, 0x0000] : List Word).all
      (fun op => decode op == .unrecognized op) = true := by decide

/-- S11: the byte at the lower address is the more significant. -/
theorem test_decode_bytes : decodeBytes [0x60, 0x11, 0xFF] = .instr (.ldImm 0 0x11) [0xFF] := by decide

/-- The host's numbering: the first byte of the one 16-bit word is its high byte. -/
theorem test_decodeTableWord : decodeTableWord 16 0x812E = some (.shl 1 2) := by decide

/-! ## Single steps -/

/-- The state after a step. -/
def testNext (s : State) : State :=
  match step s with
  | .next t => t
  | .fault _ | .refused _ => s

/-- The state after the step that runs an opcode placed at PC. -/
def testStep (op : Word) (s : State) : State := testNext (s.placeOpcode op)

/-- The creation state with two registers set. -/
def testRegs (x : Reg) (a : Byte) (y : Reg) (b : Byte) : State := (State.reset.setReg x a).setReg y b

/-- The creation state with I set and bytes in memory there. -/
def testMem (a : Word) (bs : List Byte) : State :=
  { State.reset.setI a with mem := Memory.setBytes [] a.toNat bs }

/-! ### Step cycle -/

/-- V40-1: the zero word only advances, and ticks. -/
theorem test_step_unrecognized :
    testStep 0x0000 { State.reset with dt := 3 } = { State.reset with dt := 2, pc := 0x202 } := by decide

/-- V40-4: the last opcode of memory runs, and the machine is then halted. -/
theorem test_step_at_4094 :
    (testStep 0x6055 (State.reset.setPc 4094)).reg 0 = 0x55 ∧
    stepOutcome (testStep 0x6055 (State.reset.setPc 4094)) = .halted := by decide

/-- V40-6: a fetch at the last byte is fatal, and the timers stand. -/
theorem test_step_at_4095 :
    testNext { State.reset with pc := 4095, dt := 3 } =
      { State.reset with pc := 4095, dt := 3, fault := some .fetchOutOfRange } := by decide

/-- V40-7: an odd PC is no fault. -/
theorem test_step_odd : (testStep 0x6A7B (State.reset.setPc 0x201)).reg 10 = 0x7B := by decide

/-- V40-8: a paused machine does not move. -/
theorem test_step_paused :
    testNext { State.reset with run := .paused, dt := 5 } = { State.reset with run := .paused, dt := 5 } := by decide

/-! ### Control transfer -/

/-- V41-1. -/
theorem test_jp : (testStep 0x1ABC State.reset).pc = 0x0ABC := by decide

/-- V41-3. -/
theorem test_call :
    (testStep 0x2ABC State.reset).stack.get 0 = 0x0202 ∧ (testStep 0x2ABC State.reset).sp = 1 ∧
    (testStep 0x2ABC State.reset).pc = 0x0ABC := by decide

/-- V41-6: nothing moves but the latch. -/
theorem test_call_full :
    testStep 0x2ABC { State.reset with sp := 16, dt := 3 } =
      { State.placeOpcode { State.reset with sp := 16, dt := 3 } 0x2ABC with fault := some .stackOverflow } := by decide

/-- V41-5, second step. -/
theorem test_ret : (testStep 0x00EE (testStep 0x2204 State.reset)).pc = 0x202 := by decide

/-- V41-4. -/
theorem test_ret_empty :
    (testStep 0x00EE State.reset).fault = some .stackUnderflow ∧ (testStep 0x00EE State.reset).pc = 0x200 := by decide

/-- V41-7 and V41-8: the sum leaves the 4096 addresses and is not reduced. -/
theorem test_jpV0 :
    (testStep 0xB300 (State.reset.setReg 0 0x04)).pc = 0x304 ∧
    (testStep 0xBFFF (State.reset.setReg 0 0xFF)).pc = 0x10FE := by decide

/-- V41-9 and V41-10. -/
theorem test_seImm :
    (testStep 0x3011 (State.reset.setReg 0 0x11)).pc = 0x204 ∧
    (testStep 0x3011 (State.reset.setReg 0 0x10)).pc = 0x202 := by decide

/-- V41-11 and V41-12. -/
theorem test_sneImm :
    (testStep 0x4301 (State.reset.setReg 3 0)).pc = 0x204 ∧
    (testStep 0x4301 (State.reset.setReg 3 1)).pc = 0x202 := by decide

/-- V41-13 and V41-14. -/
theorem test_seReg :
    (testStep 0x5120 (testRegs 1 0x7F 2 0x7F)).pc = 0x204 ∧
    (testStep 0x5120 (testRegs 1 0x7F 2 0x80)).pc = 0x202 := by decide

/-- V41-13 and V41-14. -/
theorem test_sneReg :
    (testStep 0x9120 (testRegs 1 0x7F 2 0x7F)).pc = 0x202 ∧
    (testStep 0x9120 (testRegs 1 0x7F 2 0x80)).pc = 0x204 := by decide

/-- V41-16: a skip past the top. -/
theorem test_skip_past_top : (testStep 0x3000 (State.reset.setPc 4094)).pc = 0x1002 := by decide

/-! ### Registers and ALU: Vx and VF after the step -/

/-- Vx and VF after a step of an instruction on V1 and V2. -/
def testAlu (op : Word) (a b : Byte) : Byte × Byte :=
  ((testStep op (testRegs 1 a 2 b)).reg 1, (testStep op (testRegs 1 a 2 b)).reg 15)

/-- V42-1 and V42-2. -/
theorem test_ldImm :
    (testStep 0x6011 State.reset).reg 0 = 0x11 ∧ (testStep 0x6F7B State.reset).reg 15 = 0x7B := by decide

/-- V42-3: the sum wraps and sets no flag. -/
theorem test_addImm :
    (testStep 0x7003 (State.reset.setReg 0 0xFE)).reg 0 = 0x01 ∧
    (testStep 0x7003 (State.reset.setReg 0 0xFE)).reg 15 = 0 := by decide

/-- V42-5. -/
theorem test_ldReg : testAlu 0x8120 0x00 0x5A = (0x5A, 0) := by decide

/-- V42-6: VF keeps its 1. -/
theorem test_orReg :
    testAlu 0x8121 0xF0 0x0F = (0xFF, 0) ∧
    (testStep 0x8121 (testRegs 1 0xF0 15 1)).reg 15 = 1 := by decide

/-- V42-7. -/
theorem test_andReg : testAlu 0x8122 0xF0 0x3C = (0x30, 0) := by decide

/-- V42-8. -/
theorem test_xorReg : testAlu 0x8123 0xF0 0x3C = (0xCC, 0) := by decide

/-- V42-10, and R134's row 0xFF, 0xFF. -/
theorem test_addReg : testAlu 0x8124 0xC8 0x64 = (0x2C, 1) ∧ testAlu 0x8124 0xFF 0xFF = (0xFE, 1) := by decide

/-- V42-23 and V42-29: x = F keeps the sum, y = F adds the old VF. -/
theorem test_addReg_F :
    (testStep 0x8F04 (testRegs 15 0xF0 0 0x20)).reg 15 = 0x10 ∧
    (testStep 0x80F4 (testRegs 0 0xFF 15 0x01)).reg 0 = 0x00 ∧
    (testStep 0x80F4 (testRegs 0 0xFF 15 0x01)).reg 15 = 1 := by decide

/-- V42-12 and V42-13. -/
theorem test_subReg : testAlu 0x8125 0x05 0x07 = (0xFE, 0) ∧ testAlu 0x8125 0x07 0x07 = (0x00, 1) := by decide

/-- V42-24 and V42-30. -/
theorem test_subReg_F :
    (testStep 0x8F05 (testRegs 15 0x05 0 0x03)).reg 15 = 0x02 ∧
    (testStep 0x80F5 (testRegs 0 0x01 15 0x02)).reg 0 = 0xFF ∧
    (testStep 0x80F5 (testRegs 0 0x01 15 0x02)).reg 15 = 0 := by decide

/-- V42-14 and V42-15. -/
theorem test_shr : testAlu 0x8126 0x07 0x00 = (0x03, 1) ∧ testAlu 0x8126 0x80 0xFF = (0x40, 0) := by decide

/-- V42-25. -/
theorem test_shr_F : (testStep 0x8F06 (State.reset.setReg 15 0x05)).reg 15 = 0x02 := by decide

/-- V42-16 and V42-17. -/
theorem test_subn : testAlu 0x8127 0x05 0x07 = (0x02, 1) ∧ testAlu 0x8127 0x07 0x05 = (0xFE, 0) := by decide

/-- V42-26 and V42-31. -/
theorem test_subn_F :
    (testStep 0x8F07 (testRegs 15 0x03 0 0x05)).reg 15 = 0x02 ∧
    (testStep 0x80F7 (testRegs 0 0x01 15 0x02)).reg 0 = 0x01 ∧
    (testStep 0x80F7 (testRegs 0 0x01 15 0x02)).reg 15 = 1 := by decide

/-- V42-18 and V42-19. -/
theorem test_shl : testAlu 0x812E 0xC1 0x00 = (0x82, 1) ∧ testAlu 0x812E 0x7F 0x00 = (0xFE, 0) := by decide

/-- V42-27. -/
theorem test_shl_F : (testStep 0x8F0E (State.reset.setReg 15 0x81)).reg 15 = 0x02 := by decide

/-- V42-21: with a mask of 0 the register is 0, whatever the free byte. -/
theorem test_rnd_mask_zero : ∃ t, exec (.rnd 3 0x00) State.reset = .next t ∧ t.reg 3 = 0 :=
  ⟨_, rfl, by rw [State.reg_setReg, if_pos rfl]; exact BitVec.and_zero⟩

/-- V42-20: the free byte 0xB7 under the mask 0x0F. -/
theorem test_rnd_masked (h : Config.rnd 0 = 0xB7) : ∃ t, exec (.rnd 3 0x0F) State.reset = .next t ∧ t.reg 3 = 0x07 :=
  ⟨_, rfl, by rw [State.reg_setReg, if_pos rfl]; exact congrArg (· &&& 0x0F) h⟩

/-! ### Address register and memory -/

/-- V43-1. -/
theorem test_ldI : (testStep 0xA300 State.reset).i = 0x300 := by decide

/-- V43-3 and V43-4: no 12-bit wrap, a 16-bit wrap. -/
theorem test_addI :
    (testStep 0xF11E ((State.reset.setI 0x0FFF).setReg 1 0x01)).i = 0x1000 ∧
    (testStep 0xF11E ((State.reset.setI 0xFFFF).setReg 1 0x02)).i = 0x0001 := by decide

/-- V43-5 and V43-6: no masking. -/
theorem test_ldFont :
    (testStep 0xF429 (State.reset.setReg 4 0x0A)).i = 0x0032 ∧
    (testStep 0xF129 (State.reset.setReg 1 0xFF)).i = 0x04FB := by decide

/-- V43-9: the last legal I. -/
theorem test_bcd :
    (testStep 0xF033 ((State.reset.setI 4093).setReg 0 123)).mem.load 4093 3 = some [1, 2, 3] := by decide

/-- V43-10: not one byte is written, and PC stands. -/
theorem test_bcd_beyond :
    (testStep 0xF033 ((State.reset.setI 4094).setReg 0 123)).mem = [(0x200, 0xF0), (0x201, 0x33)] ∧
    (testStep 0xF033 ((State.reset.setI 4094).setReg 0 123)).fault = some .memOutOfRange ∧
    (testStep 0xF033 ((State.reset.setI 4094).setReg 0 123)).pc = 0x200 := by decide

/-- V43-12: three registers, and the byte after them stays 0. -/
theorem test_storeRegs :
    (testStep 0xF255 (((State.reset.setI 0x400).setRegBlock [0x11, 0x22, 0x33, 0x44]))).mem.load 0x400 4 =
      some [0x11, 0x22, 0x33, 0] := by decide

/-- V43-14. -/
theorem test_storeRegs_beyond : (testStep 0xFF55 (State.reset.setI 4081)).fault = some .memOutOfRange := by decide

/-- V43-15: V3 keeps its value. -/
theorem test_loadRegs :
    (testStep 0xF265 ((testMem 0x300 [2, 5, 4, 9]).setReg 3 0x77)).regBlock 3 = [2, 5, 4, 0x77] := by decide

/-- V43-17: glyph 0 read as data. -/
theorem test_loadRegs_font :
    (testStep 0xF465 State.reset).regBlock 4 = [0xF0, 0x90, 0x90, 0x90, 0xF0] := by decide

/-! ### Display -/

/-- V44-1. -/
theorem test_cls :
    (testStep 0x00E0 { State.reset.setReg 15 1 with fb := Framebuffer.clear.set 31 3 }).fb = Framebuffer.clear ∧
    (testStep 0x00E0 (State.reset.setReg 15 1)).reg 15 = 1 := by decide

/-- V44-3: the origin wraps, the body clips. -/
theorem test_drw_clips :
    (testStep 0xD015 (testRegs 0 126 1 62)).fb = (Framebuffer.clear.set 30 3).set 31 2 ∧
    (testStep 0xD015 (testRegs 0 126 1 62)).reg 15 = 0 := by decide

/-- V44-6: one cell erased, and VF = 1. -/
theorem test_drw_collides :
    (testStep 0xD011 { testMem 0x300 [0xF0] with
      fb := Framebuffer.clear.set 0 (0x18#8 ++ 0#56) }).fb = Framebuffer.clear.set 0 (0xE8#8 ++ 0#56) ∧
    (testStep 0xD011 { testMem 0x300 [0xF0] with
      fb := Framebuffer.clear.set 0 (0x18#8 ++ 0#56) }).reg 15 = 1 := by decide

/-! ### Keypad and timers -/

/-- The creation state with one register set and one key pressed. -/
def testKey (x : Reg) (a : Byte) (k : Nat) : State := (State.reset.setReg x a).setKey k true

/-- V45-1 and V45-2. -/
theorem test_skp :
    (testStep 0xE29E (testKey 2 7 7)).pc = 0x204 ∧ (testStep 0xE29E (testKey 2 7 8)).pc = 0x202 := by decide

/-- V45-4. -/
theorem test_skp_beyond :
    (testStep 0xE09E (testKey 0 16 0)).fault = some .keyIndexOutOfRange ∧
    (testStep 0xE09E (testKey 0 16 0)).fatalInfo = some 16 := by decide

/-- V45-1 and V45-2. -/
theorem test_sknp :
    (testStep 0xE2A1 (testKey 2 7 7)).pc = 0x202 ∧ (testStep 0xE2A1 (testKey 2 7 8)).pc = 0x204 := by decide

/-- V45-4. -/
theorem test_sknp_beyond : (testStep 0xE0A1 (testKey 0 16 0)).fault = some .keyIndexOutOfRange := by decide

/-- V45-5: no key, so only the timer moves. -/
theorem test_waitKey_none :
    testStep 0xF10A { State.reset.setReg 1 0x33 with dt := 9 } =
      { State.placeOpcode { State.reset.setReg 1 0x33 with dt := 9 } 0xF10A with dt := 8 } := by decide

/-- V45-6: the lowest pressed key. -/
theorem test_waitKey :
    (testStep 0xF10A ((State.reset.setKey 9 true).setKey 7 true)).reg 1 = 7 ∧
    (testStep 0xF10A ((State.reset.setKey 9 true).setKey 7 true)).pc = 0x202 := by decide

/-- V45-8. -/
theorem test_ldDT :
    (testStep 0xF207 { State.reset with dt := 5 }).reg 2 = 5 ∧
    (testStep 0xF207 { State.reset with dt := 5 }).dt = 4 := by decide

/-- V45-10 and V45-11. -/
theorem test_setDT :
    (testStep 0xF015 (State.reset.setReg 0 0x0A)).dt = 9 ∧ (testStep 0xF015 (State.reset.setReg 0 0)).dt = 0 := by decide

/-- V45-12 and V45-13. -/
theorem test_setST :
    (testStep 0xF018 (State.reset.setReg 0 1)).tone = false ∧ (testStep 0xF018 (State.reset.setReg 0 2)).st = 1 ∧
    (testStep 0xF018 (State.reset.setReg 0 2)).tone = true := by decide

/-! ### Host interface and creation -/

/-- V50-1: creation writes the default font table, and every unlisted address reads so. -/
theorem test_create : State.create defaultFont = State.reset := by decide

/-- V50-4. -/
theorem test_load :
    State.load State.reset [0x12, 0x00] = .accepted { State.reset with mem := [(0x200, 0x12)] } := by decide

/-- V50-2. -/
theorem test_load_rejected : State.load State.reset (List.replicate 3585 0xFF) = .rejected := by
  unfold State.load; rw [if_pos (by rw [List.length_replicate]; decide)]

/-- V50-5 and V50-6. -/
theorem test_setKey :
    State.reset.setKey 16 true = State.reset ∧ (State.reset.setKey 3 true).setKey 3 false = State.reset := by decide

/-- V50-8. -/
theorem test_quit : State.reset.quit.togglePause.run = .quit ∧ stepOutcome State.reset.quit = .idle := by decide

/-- The trace of R202 for the skip of P1. -/
theorem test_trace :
    (State.reset.placeOpcode 0x3011).trace =
      some { addr := 0x200, opcode := 0x3011, mnemonic := some "SE Vx, nn" } := by decide

/-! ## Witnesses: a state and operands that meet each statement's hypotheses -/

/-- Whether an execute phase or a step answers this next state. -/
def testAnswers (r : Result) (t : State) : Prop :=
  match r with
  | .next u => u = t
  | .fault _ | .refused _ => False

/-- The creation state with an opcode placed at PC. -/
abbrev testPlaced (op : Word) : State := State.reset.placeOpcode op

theorem test_witness_EncodeDecodeRoundTrip : (Instr.drw 1 2 15).wellFormed = true := by decide

theorem test_witness_DecodedWordsReencode : decode 0x812E = .instr (.shl 1 2) := by decide

theorem test_witness_DecodeFollowsOpcodeTable :
    (0xFF65 : Word) &&& (Instr.loadRegs 0).mask = (Instr.loadRegs 0).pattern ∧
    (0xFF65 : Word) &&& (Instr.loadRegs 15).mask = (Instr.loadRegs 15).pattern := by decide

/-- One word of each clause of the list, and one that is an instruction. -/
theorem test_witness_UnrecognizedWordsByFamily :
    ([0x0000, 0x00EF, 0x5FF1, 0x800F, 0x9001, 0xE09F, 0xFFFF] : List Word).all
      (fun op => decode op == .unrecognized op) = true ∧
    decode 0xF065 = .instr (.loadRegs 0) := by decide

theorem test_witness_StepRunsDecodedInstruction :
    (testPlaced 0x6011).fault = none ∧ (testPlaced 0x6011).run = .running ∧ (testPlaced 0x6011).pc.toNat + 2 ≤ 4096 ∧
    decode (opcodeOf ((testPlaced 0x6011).mem.byteAt 0x200) ((testPlaced 0x6011).mem.byteAt 0x201)) =
      .instr (.ldImm 0 0x11) ∧
    raised (exec (.ldImm 0 0x11) (testPlaced 0x6011).advancePc) = none := by decide

/-- The other clause: an execute phase that raises, at the last opcode of memory. -/
theorem test_witness_StepRunsDecodedInstruction_raise :
    ((State.reset.setPc 4094).placeOpcode 0x00EE).pc.toNat + 2 ≤ 4096 ∧
    ((State.reset.setPc 4094).placeOpcode 0x00EE).AboutTo .ret ∧
    raised (exec .ret ((State.reset.setPc 4094).placeOpcode 0x00EE).advancePc) = some .stackUnderflow := by decide

theorem test_witness_PlacedWordRunsNext :
    State.reset.mem.wf = true ∧ decodeTableWord 16 0xF055 = some (.storeRegs 0) := by decide

theorem test_witness_UnrecognizedOpcodeOnlyAdvances :
    (testPlaced 0x5011).fault = none ∧ (testPlaced 0x5011).run = .running ∧ (testPlaced 0x5011).pc.toNat + 2 ≤ 4096 ∧
    0x5011 = opcodeOf ((testPlaced 0x5011).mem.byteAt 0x200) ((testPlaced 0x5011).mem.byteAt 0x201) ∧
    ∀ i, decode 0x5011 ≠ .instr i :=
  ⟨by decide, by decide, by decide, by decide, fun i h => by
    rw [show decode 0x5011 = .unrecognized 0x5011 by decide] at h; exact nomatch h⟩

theorem test_witness_HaltedMachineOnlyTicks :
    (State.reset.setPc 4096).fault = none ∧ (State.reset.setPc 4096).run = .running ∧
    4096 ≤ (State.reset.setPc 4096).pc.toNat := by decide

theorem test_witness_StoppedMachineNeverMoves :
    (State.reset.raise .stackOverflow).fault = some .stackOverflow ∧
    State.reset.togglePause.run ≠ .running ∧ State.reset.togglePause.fault = none ∧
    State.reset.quit.run ≠ .running := by decide

theorem test_witness_FatalStepCommitsNothing :
    (testPlaced 0x00EE).fault = none ∧
    testAnswers (step (testPlaced 0x00EE)) ((testPlaced 0x00EE).raise .stackUnderflow) ∧
    ((testPlaced 0x00EE).raise .stackUnderflow).fault = some .stackUnderflow :=
  ⟨by decide, rfl, by decide⟩

/-- One state for each cause of the table. -/
theorem test_witness_FatalCausesMeetTheirConditions :
    stepOutcome { testPlaced 0x2ABC with sp := 16 } = .fatal .stackOverflow ∧
    stepOutcome (testPlaced 0x00EE) = .fatal .stackUnderflow ∧
    stepOutcome (State.reset.setPc 4095) = .fatal .fetchOutOfRange ∧
    stepOutcome ((testPlaced 0xD011).setI 4096) = .fatal .memOutOfRange ∧
    stepOutcome ((testPlaced 0xF033).setI 4094) = .fatal .memOutOfRange ∧
    stepOutcome ((testPlaced 0xF155).setI 4095) = .fatal .memOutOfRange ∧
    stepOutcome ((testPlaced 0xF165).setI 4095) = .fatal .memOutOfRange ∧
    stepOutcome ((testPlaced 0xE19E).setReg 1 16) = .fatal .keyIndexOutOfRange ∧
    stepOutcome ((testPlaced 0xE1A1).setReg 1 16) = .fatal .keyIndexOutOfRange := by decide

theorem test_witness_FetchAtLastByteIsFatal :
    (State.reset.setPc 4095).fault = none ∧ (State.reset.setPc 4095).run = .running ∧
    (State.reset.setPc 4095).pc.toNat = 4095 := by decide

/-- A step of each kind that ticks, and the three timer instructions. -/
theorem test_witness_TickEndsEveryTickingStep :
    (stepOutcome (testPlaced 0x0000)).ticks = true ∧ (stepOutcome (State.reset.setPc 4096)).ticks = true ∧
    (testPlaced 0xF115).AboutTo (.setDT 1) ∧ (stepOutcome (testPlaced 0xF115)).ticks = true ∧
    (testPlaced 0xF118).AboutTo (.setST 1) ∧ (stepOutcome (testPlaced 0xF118)).ticks = true ∧
    (testPlaced 0xF107).AboutTo (.ldDT 1) ∧ (stepOutcome (testPlaced 0xF107)).ticks = true := by decide

theorem test_witness_TimerLaw : State.quiet 3 { State.reset with dt := 2, st := 5 } = true := by decide

theorem test_witness_StepKeepsInvariant :
    (testPlaced 0x2ABC).Inv ∧ testAnswers (step (testPlaced 0x2ABC)) (testNext (testPlaced 0x2ABC)) :=
  ⟨by decide, rfl⟩

theorem test_witness_RunsKeepInvariant :
    ∃ σ, Session.run [.load [0x22, 0x00], .step, .setKey 3 true, .togglePause, .step, .quit]
      (Session.launch defaultFont) = .next σ := ⟨_, rfl⟩

theorem test_witness_OnlyListedInstructionsWrite :
    ∃ t, exec (.storeRegs 15) (State.reset.setI 0x300) = .next t := ⟨_, rfl⟩

theorem test_witness_OnlyNamedRegistersChange :
    (∃ t, exec (.addReg 1 2) (testRegs 1 0xFF 2 1) = .next t ∧ t.fault = none) ∧
    namesDest (.addReg 1 2) 0 = false ∧ writesFlag (.addReg 1 2) = true ∧ namesDest (.addReg 1 2) 15 = false :=
  ⟨⟨_, rfl, rfl⟩, by decide, by decide, by decide⟩

theorem test_witness_OnlyRndReadsTheRandomByte :
    (∀ x nn, ¬ (testPlaced 0x6011).AboutTo (.rnd x nn)) ∧ ∃ t, step (testPlaced 0x6011) = .next t :=
  ⟨fun x nn h => by
    rw [State.AboutTo, show phase (testPlaced 0x6011) = .execute (.ldImm 0 0x11) by decide] at h
    simp at h, _, rfl⟩

theorem test_witness_OnlyKeyInstructionsReadTheKeypad :
    (∀ x, ¬ (testPlaced 0x6011).AboutTo (.skp x) ∧ ¬ (testPlaced 0x6011).AboutTo (.sknp x) ∧
      ¬ (testPlaced 0x6011).AboutTo (.waitKey x)) ∧ ∃ t, step (testPlaced 0x6011) = .next t :=
  ⟨fun x => by
    simp only [State.AboutTo, show phase (testPlaced 0x6011) = .execute (.ldImm 0 0x11) by decide]
    simp, _, rfl⟩

/-- The last free slot, and the full stack. -/
theorem test_witness_CallPushesReturnAddress :
    ({ State.reset with sp := 15 } : State).sp.val < 16 ∧ ({ State.reset with sp := 16 } : State).sp = 16 := by decide

/-- The fullest stack, the one-entry stack, and the empty one. -/
theorem test_witness_ReturnPopsIntoPc :
    ({ State.reset with sp := 16 } : State).sp.val = 15 + 1 ∧ ({ State.reset with sp := 1 } : State).sp.val = 0 + 1 ∧
    State.reset.sp = 0 := by decide

/-- A call of the last opcode of memory, which is a return, on a stack with one free slot. -/
def testCallReturn : State :=
  { testPlaced 0x2FFE with sp := 15, mem := (testPlaced 0x2FFE).mem.setBytes 0xFFE [0x00, 0xEE] }

theorem test_witness_CallThenReturnComesBack :
    testCallReturn.AboutTo (.call 0xFFE) ∧ testCallReturn.sp.val < 16 ∧ (0xFFE : Addr).toNat + 2 ≤ 4096 ∧
    testCallReturn.mem.byteAt 0xFFE = 0x00 ∧ testCallReturn.mem.byteAt (0xFFE + 1) = 0xEE := by decide

theorem test_witness_AddSetsCarryThenSum : (14 : Reg) ≠ 15 := by decide

theorem test_witness_SubtractsSetNoBorrowThenDifference : (0 : Reg) ≠ 15 := by decide

theorem test_witness_ShiftsSetBitOutThenResult : (1 : Reg) ≠ 15 := by decide

theorem test_witness_RandomByteIsMasked : (0x0F : Byte).getLsbD 4 = false := by decide

theorem test_witness_DecimalDigitsAreStored :
    (State.reset.setI 4093).mem.wf = true ∧ (State.reset.setI 4093).i.toNat + 2 ≤ 4095 := by decide

theorem test_witness_RegisterBlockIsStored :
    (State.reset.setI 4080).mem.wf = true ∧ (State.reset.setI 4080).i.toNat + (15 : Reg).val ≤ 4095 := by decide

theorem test_witness_RegisterBlockIsLoaded : (State.reset.setI 4095).i.toNat + (0 : Reg).val ≤ 4095 := by decide

theorem test_witness_StoredBlockLoadsBack :
    (State.reset.setI 4090).mem.wf = true ∧ (State.reset.setI 4090).i.toNat + (5 : Reg).val ≤ 4095 := by decide

/-- The first address at which each access leaves memory. -/
theorem test_witness_AccessBeyondMemoryIsFatal :
    0 < 1 ∧ 4095 < (State.reset.setI 4096).i.toNat + 1 - 1 ∧ 4095 < (State.reset.setI 4094).i.toNat + 2 ∧
    4095 < (State.reset.setI 4081).i.toNat + (15 : Reg).val := by decide

theorem test_witness_StoredBytesAreFetchedNext :
    (State.reset.setI 0x200).mem.wf = true ∧ (1 : Reg) ≤ 1 ∧ (State.reset.setI 0x200).i.toNat + (1 : Reg).val ≤ 4095 ∧
    (State.reset.setI 0x200).pc = (State.reset.setI 0x200).i := by decide

/-- A canonical memory, and the same one after a byte went to 5 and back to 0. -/
theorem test_witness_EqualReadsMakeEqualMemories :
    Memory.wf [(0x300, 7)] = true ∧ Memory.wf (Memory.setByte [(0x300, 7)] 0xFFF 0) = true ∧
    Memory.setByte (Memory.setByte [(0x300, 7)] 0xFFF 5) 0xFFF 0 = [(0x300, 7)] := by decide

/-- No row at all with I outside memory, and one row at the last byte. -/
theorem test_witness_DrawTogglesVisiblePixels :
    (0 = 0 ∨ (State.reset.setI 0xFFFF).i.toNat + 0 - 1 ≤ 4095) ∧
    (1 = 0 ∨ (State.reset.setI 0xFFF).i.toNat + 1 - 1 ≤ 4095) := by decide

theorem test_witness_DrawTwiceRestoresFramebuffer :
    (0 : Reg) ≠ 15 ∧ (1 : Reg) ≠ 15 ∧ (15 = 0 ∨ (State.reset.setI 4081).i.toNat + 15 - 1 ≤ 4095) := by decide

theorem test_witness_KeySkipsFollowKeyLevel : ((testKey 0 15 15).reg 0).toNat < 16 := by decide

theorem test_witness_KeyIndexAboveFifteenIsFatal : 15 < ((testKey 0 16 0).reg 0).toNat := by decide

/-- Only the highest key; and no key at all, with the wait about to run. -/
theorem test_witness_KeyWaitTakesLeastKeyOrRewinds :
    ((State.reset.setKey 15 true).key.get 15 = true ∧ ∀ j : Fin 16, j < 15 → (State.reset.setKey 15 true).key.get j = false) ∧
    (∀ k : Fin 16, (testPlaced 0xF10A).key.get k = false) ∧ (testPlaced 0xF10A).AboutTo (.waitKey 1) := by decide

theorem test_witness_TimerInstructionsComeBeforeTheTick :
    (testPlaced 0xF207).AboutTo (.ldDT 2) ∧ (testPlaced 0xF215).AboutTo (.setDT 2) ∧
    (testPlaced 0xF218).AboutTo (.setST 2) := by decide

theorem test_witness_ToneIsSeenFromTwoUp : (testPlaced 0xFF18).AboutTo (.setST 15) := by decide

/-- The longest image that fits, and the shortest that does not. -/
theorem test_witness_LoadCopiesProgramOrRejects :
    State.reset.mem.wf = true ∧ (List.replicate 3584 (0xFF : Byte)).length ≤ 3584 ∧
    3584 < (List.replicate 3585 (0xFF : Byte)).length :=
  ⟨by decide, by rw [List.length_replicate], by rw [List.length_replicate]; decide⟩

/-- The last key, the first index that is none, and a key set to the level it has. -/
theorem test_witness_SetKeyWritesOneKey :
    15 < 16 ∧ (14 : Fin 16).val ≠ 15 ∧ 16 ≤ 16 ∧ State.reset.key.get 15 = false ∧
    ∃ t, step State.reset = .next t := ⟨by decide, by decide, by decide, by decide, _, rfl⟩

theorem test_witness_RunStateOperations :
    State.reset.run = .running ∧ State.reset.togglePause.run = .paused ∧ State.reset.quit.run = .quit := by decide

/-- After a step, after an accepted load, and after neither. -/
theorem test_witness_SecondLoadIsRefused :
    (∃ σ, Session.run [.step] (Session.launch defaultFont) = .next σ) ∧
    (HostEvent.step ∈ [HostEvent.step] ∧ ([] : List Byte).length ≤ 3584) ∧
    (∃ σ, Session.run [.load []] (Session.launch defaultFont) = .next σ) ∧
    (∃ r, HostEvent.load r ∈ [HostEvent.load []] ∧ r.length ≤ 3584) ∧
    (∃ σ, Session.run [.setKey 3 true] (Session.launch defaultFont) = .next σ) ∧
    (HostEvent.step ∉ [HostEvent.setKey 3 true] ∧
      ∀ r, HostEvent.load r ∈ [HostEvent.setKey 3 true] → 3584 < r.length) ∧
    3584 < (List.replicate 3585 (0xFF : Byte)).length :=
  ⟨⟨_, rfl⟩, ⟨by simp, by decide⟩, ⟨_, rfl⟩, ⟨[], by simp, by decide⟩, ⟨_, rfl⟩, ⟨by simp, by simp⟩,
    by rw [List.length_replicate]; decide⟩

theorem test_witness_CreationState : (4 : Nat) < 80 ∧ 80 ≤ (80 : Nat) := by decide
end

section
/-! SUPPORT. The step cycle: what the decoder answers for a word that is no instruction (R87), and where the timer tick
stands in a step (R88). -/

namespace Sys2Proof

/-! ## A word is an instruction, or unrecognized under its own name -/

/-- What the decoder may answer for the word `op`: an instruction, or `op` itself as unrecognized (R85). -/
def Decoded.Of (op : Word) (d : Decoded) : Prop := (∃ i, d = .instr i) ∨ d = .unrecognized op

theorem Decoded.Of.instr {op : Word} (i : Instr) : Decoded.Of op (.instr i) := .inl ⟨i, rfl⟩

theorem Decoded.Of.unrecognized {op : Word} : Decoded.Of op (.unrecognized op) := .inr rfl

theorem Decoded.Of.ite {op : Word} {p : Prop} [Decidable p] {d e : Decoded} (hd : d.Of op) (he : e.Of op) :
    Decoded.Of op (if p then d else e) := iteInduction (fun _ => hd) (fun _ => he)

theorem decodeFam0_of (op : Word) : (decodeFam0 op).Of op := by
  unfold decodeFam0
  exact .ite (.instr _) (.ite (.instr _) .unrecognized)

theorem decodeFam8_of (op : Word) : (decodeFam8 op).Of op := by
  unfold decodeFam8
  iterate 9 refine .ite (.instr _) ?_
  exact .unrecognized

theorem decodeFamE_of (op : Word) : (decodeFamE op).Of op := by
  unfold decodeFamE
  exact .ite (.instr _) (.ite (.instr _) .unrecognized)

theorem decodeFamF_of (op : Word) : (decodeFamF op).Of op := by
  unfold decodeFamF
  iterate 9 refine .ite (.instr _) ?_
  exact .unrecognized

/-- The decoder is total, and an unrecognized opcode is reported with its own word (R66, R85). -/
theorem decode_of (op : Word) : (decode op).Of op := by
  unfold decode
  refine .ite (decodeFam0_of op) ?_
  iterate 4 refine .ite (.instr _) ?_
  refine .ite (.ite (.instr _) .unrecognized) ?_
  iterate 2 refine .ite (.instr _) ?_
  refine .ite (decodeFam8_of op) ?_
  refine .ite (.ite (.instr _) .unrecognized) ?_
  iterate 4 refine .ite (.instr _) ?_
  exact .ite (decodeFamE_of op) (decodeFamF_of op)

theorem decode_eq_unrecognized_of_not_instr {op : Word} (h : ∀ i, decode op ≠ .instr i) :
    decode op = .unrecognized op :=
  (decode_of op).resolve_left fun ⟨i, hi⟩ => h i hi

end Sys2Proof

namespace Sys2Proof.Machine

/-! ## The step, phase by phase (R89) -/

section
variable {s : State}

theorem step_of_halted (h : phase s = .halted) : step s = .next s.timerTick := by
  simp only [step, cycle, h]

theorem step_of_unrecognized {addr op : Word} (h : phase s = .unrecognized addr op) :
    step s = .next s.advancePc.timerTick := by
  simp only [step, cycle, h]

theorem stepOutcome_of_unrecognized {addr op : Word} (h : phase s = .unrecognized addr op) :
    stepOutcome s = .okUnrecognized addr op := by
  simp only [stepOutcome, h]

theorem step_of_aboutTo {i : Instr} (h : s.AboutTo i) : step s = commit s (exec i s.advancePc) := by
  simp only [step, cycle, h]

theorem stepOutcome_of_raised {i : Instr} {c : Fault} (h : s.AboutTo i)
    (hc : raised (exec i s.advancePc) = some c) : stepOutcome s = .fatal c := by
  simp only [stepOutcome, h, hc]

/-- A state is about to run one instruction at most. -/
theorem State.AboutTo.unique {i j : Instr} (hi : s.AboutTo i) (hj : s.AboutTo j) : i = j :=
  Phase.execute.inj (hi.symm.trans hj)

/-- Where the gate passes and the two bytes at PC are no instruction (R87). -/
theorem phase_of_unrecognized {op : Word} (hf : s.fault = none) (hr : s.run = .running)
    (hp : s.pc.toNat + 2 ≤ Config.memSize)
    (hd : decode (opcodeOf (s.mem.byteAt s.pc.toNat) (s.mem.byteAt (s.pc.toNat + 1))) = .unrecognized op) :
    phase s = .unrecognized s.pc op := by
  have hm : ¬ Config.memSize ≤ s.pc.toNat := by omega
  simp only [phase, State.fetch_eq, hf, hr, hp, hm, hd, ne_eq, not_true_eq_false, if_false, if_true]

end

/-! ## What each instruction that can raise a cause answers -/

section
variable (s : State) (x y : Reg)

theorem execRet_cases :
    (∃ target popped, s.pop = some (target, popped) ∧ execRet s = .next (popped.setPc target)) ∨
    (s.pop = none ∧ execRet s = .next (s.raise .stackUnderflow)) := by
  unfold execRet
  cases s.pop with
  | none => exact .inr ⟨rfl, rfl⟩
  | some p => exact .inl ⟨p.1, p.2, rfl, rfl⟩

theorem execCall_cases (nnn : Addr) :
    (∃ pushed, s.push s.pc = some pushed ∧ execCall nnn s = .next (pushed.setPc (addrOperand nnn))) ∨
    (s.push s.pc = none ∧ execCall nnn s = .next (s.raise .stackOverflow)) := by
  unfold execCall
  cases s.push s.pc with
  | none => exact .inr ⟨rfl, rfl⟩
  | some pushed => exact .inl ⟨pushed, rfl, rfl⟩

theorem execDrw_cases (n : Nat) :
    (∃ sprite d, s.mem.load s.base n = some sprite ∧
      d = drawRows (spriteCol (s.reg x)) (spriteRow (s.reg y)) sprite { fb := s.fb, collision := false } ∧
      execDrw x y n s = .next (State.setFlag { s with fb := d.fb } d.collision)) ∨
    (s.mem.load s.base n = none ∧ execDrw x y n s = .next (s.raise .memOutOfRange)) := by
  unfold execDrw
  cases s.mem.load s.base n with
  | none => exact .inr ⟨rfl, rfl⟩
  | some sprite => exact .inl ⟨sprite, _, rfl, rfl, rfl⟩

theorem execSkp_cases :
    ((s.reg x).toNat ≤ 15 ∧ execSkp x s = .next (s.skipIf (s.keyDown (s.reg x).toNat))) ∨
    (15 < (s.reg x).toNat ∧ execSkp x s = .next (s.raise .keyIndexOutOfRange)) := by
  unfold execSkp
  by_cases h : (s.reg x).toNat > 15
  · exact .inr ⟨h, if_pos h⟩
  · exact .inl ⟨Nat.le_of_not_lt h, if_neg h⟩

theorem execSknp_cases :
    ((s.reg x).toNat ≤ 15 ∧ execSknp x s = .next (s.skipIf (!s.keyDown (s.reg x).toNat))) ∨
    (15 < (s.reg x).toNat ∧ execSknp x s = .next (s.raise .keyIndexOutOfRange)) := by
  unfold execSknp
  by_cases h : (s.reg x).toNat > 15
  · exact .inr ⟨h, if_pos h⟩
  · exact .inl ⟨Nat.le_of_not_lt h, if_neg h⟩

theorem execBcd_cases :
    (∃ m, s.mem.store s.base (decimalDigits (s.reg x)) = some m ∧ execBcd x s = .next { s with mem := m }) ∨
    (s.mem.store s.base (decimalDigits (s.reg x)) = none ∧ execBcd x s = .next (s.raise .memOutOfRange)) := by
  unfold execBcd
  cases s.mem.store s.base (decimalDigits (s.reg x)) with
  | none => exact .inr ⟨rfl, rfl⟩
  | some m => exact .inl ⟨m, rfl, rfl⟩

theorem execStoreRegs_cases :
    (∃ m, s.mem.store s.base (s.regBlock x) = some m ∧ execStoreRegs x s = .next { s with mem := m }) ∨
    (s.mem.store s.base (s.regBlock x) = none ∧ execStoreRegs x s = .next (s.raise .memOutOfRange)) := by
  unfold execStoreRegs
  cases s.mem.store s.base (s.regBlock x) with
  | none => exact .inr ⟨rfl, rfl⟩
  | some m => exact .inl ⟨m, rfl, rfl⟩

theorem execLoadRegs_cases :
    (∃ bs, s.mem.load s.base (x.val + 1) = some bs ∧ execLoadRegs x s = .next (s.setRegBlock bs)) ∨
    (s.mem.load s.base (x.val + 1) = none ∧ execLoadRegs x s = .next (s.raise .memOutOfRange)) := by
  unfold execLoadRegs
  cases s.mem.load s.base (x.val + 1) with
  | none => exact .inr ⟨rfl, rfl⟩
  | some bs => exact .inl ⟨bs, rfl, rfl⟩

/-- `Fx0A` raises nothing: it takes the lowest key, or rewinds PC (R175). -/
theorem execWaitKey_cases :
    (∃ k, s.lowestKey = some k ∧ execWaitKey x s = .next (s.setReg x (BitVec.ofNat 8 k))) ∨
    (s.lowestKey = none ∧ execWaitKey x s = .next s.rewindPc) := by
  unfold execWaitKey
  cases s.lowestKey with
  | none => exact .inr ⟨rfl, rfl⟩
  | some k => exact .inl ⟨k, rfl, rfl⟩

end

/-! ## The timers through the execute phase (R172 to R174) -/

theorem State.pop_timers {s t : State} {w : Word} (h : s.pop = some (w, t)) : SameTimers s t := by
  obtain ⟨n, hn, -, -, rfl⟩ := State.pop_eq_some h
  exact ⟨rfl, rfl⟩

theorem State.push_timers {s t : State} {w : Word} (h : s.push w = some t) : SameTimers s t := by
  obtain ⟨hs, rfl⟩ := State.push_eq_some h
  exact ⟨rfl, rfl⟩

/-- DT after the execute phase of an instruction: only `Fx15` writes it (R173). -/
def dtAfter (s : State) : Instr → Byte
  | .setDT x => s.reg x
  | _ => s.dt

/-- ST after the execute phase of an instruction: only `Fx18` writes it (R174). -/
def stAfter (s : State) : Instr → Byte
  | .setST x => s.reg x
  | _ => s.st

theorem dtAfter_of_ne_setDT (s : State) {i : Instr} (h : ∀ x, i ≠ .setDT x) : dtAfter s i = s.dt := by
  unfold dtAfter
  split
  · exact absurd rfl (h _)
  · rfl

theorem stAfter_of_ne_setST (s : State) {i : Instr} (h : ∀ x, i ≠ .setST x) : stAfter s i = s.st := by
  unfold stAfter
  split
  · exact absurd rfl (h _)
  · rfl

/-- Every execute phase answers a next state, whose timers only `Fx15` and `Fx18` have written. -/
theorem exec_timers (i : Instr) (s : State) :
    ∃ t, exec i s = .next t ∧ t.dt = dtAfter s i ∧ t.st = stAfter s i := by
  cases i with
  | ret =>
    obtain ⟨w, u, hp, he⟩ | ⟨-, he⟩ := execRet_cases s
    · obtain ⟨hdt, hst⟩ := State.pop_timers hp
      exact ⟨_, he, hdt, hst⟩
    · exact ⟨_, he, rfl, rfl⟩
  | call nnn =>
    obtain ⟨u, hp, he⟩ | ⟨-, he⟩ := execCall_cases s nnn
    · obtain ⟨hdt, hst⟩ := State.push_timers hp
      exact ⟨_, he, hdt, hst⟩
    · exact ⟨_, he, rfl, rfl⟩
  | drw x y n =>
    obtain ⟨_, d, -, -, he⟩ | ⟨-, he⟩ := execDrw_cases s x y n <;> exact ⟨_, he, rfl, rfl⟩
  | skp x =>
    obtain ⟨-, he⟩ | ⟨-, he⟩ := execSkp_cases s x
    · exact ⟨_, he, State.skipIf_dt .., State.skipIf_st ..⟩
    · exact ⟨_, he, rfl, rfl⟩
  | sknp x =>
    obtain ⟨-, he⟩ | ⟨-, he⟩ := execSknp_cases s x
    · exact ⟨_, he, State.skipIf_dt .., State.skipIf_st ..⟩
    · exact ⟨_, he, rfl, rfl⟩
  | bcd x =>
    obtain ⟨m, -, he⟩ | ⟨-, he⟩ := execBcd_cases s x <;> exact ⟨_, he, rfl, rfl⟩
  | storeRegs x =>
    obtain ⟨m, -, he⟩ | ⟨-, he⟩ := execStoreRegs_cases s x <;> exact ⟨_, he, rfl, rfl⟩
  | loadRegs x =>
    obtain ⟨bs, -, he⟩ | ⟨-, he⟩ := execLoadRegs_cases s x <;> exact ⟨_, he, rfl, rfl⟩
  | waitKey x =>
    obtain ⟨k, -, he⟩ | ⟨-, he⟩ := execWaitKey_cases s x <;> exact ⟨_, he, rfl, rfl⟩
  | seImm | sneImm | seReg | sneReg => exact ⟨_, rfl, State.skipIf_dt .., State.skipIf_st ..⟩
  | cls | jp | ldImm | addImm | ldReg | orReg | andReg | xorReg | addReg | subReg | shr | subn | shl | ldI | jpV0 | rnd
  | ldDT | setDT | setST | addI | ldFont => exact ⟨_, rfl, rfl, rfl⟩

/-- `Fx07` reads DT in the execute phase (R172). -/
theorem exec_ldDT_reg {x : Reg} {s t : State} (h : exec (.ldDT x) s = .next t) : t.reg x = s.dt := by
  obtain rfl : s.setReg x s.dt = t := Host.Outcome.next.inj h
  simp

/-- What a ticking step is: the tick of the state that a halt, an unrecognized opcode, or an instruction that raised
nothing has left (R90). -/
theorem ticking_step_cases {s : State} (h : (stepOutcome s).ticks = true) :
    ∃ u, step s = .next u.timerTick ∧
      ((phase s = .halted ∧ u = s) ∨ (∃ addr op, phase s = .unrecognized addr op ∧ u = s.advancePc) ∨
        ∃ i, s.AboutTo i ∧ exec i s.advancePc = .next u ∧ u.fault = none) := by
  cases hp : phase s with
  | latched | idle | fetchFault => simp [stepOutcome, hp, StepOutcome.ticks] at h
  | halted => exact ⟨s, step_of_halted hp, .inl ⟨rfl, rfl⟩⟩
  | unrecognized addr op => exact ⟨_, step_of_unrecognized hp, .inr (.inl ⟨addr, op, rfl, rfl⟩)⟩
  | execute i =>
    obtain ⟨u, he, -, -⟩ := exec_timers i s.advancePc
    cases hf : u.fault with
    | some c =>
      have ho : stepOutcome s = .fatal c := stepOutcome_of_raised hp (by rw [he, raised, hf])
      exact absurd h (by simp [ho, StepOutcome.ticks])
    | none =>
      have hs : step s = .next u.timerTick := by rw [step_of_aboutTo hp, he, commit_next_of_none hf]
      exact ⟨u, hs, .inr (.inr ⟨i, by rw [State.AboutTo, hp], he, hf⟩)⟩

/-- Settles O8: the word at PC decodes to `.unrecognized`, so the step is the advance and the tick. -/
theorem unrecognizedOpcodeOnlyAdvances : Obligations.UnrecognizedOpcodeOnlyAdvances := by
  intro s op hf hr hpc hop hni
  have hd := decode_eq_unrecognized_of_not_instr hni
  have hp : phase s = .unrecognized s.pc op := phase_of_unrecognized hf hr hpc (hop ▸ hd)
  exact ⟨_, step_of_unrecognized hp, stepOutcome_of_unrecognized hp, rfl,
    ⟨tickDown_toNat s.dt, tickDown_toNat s.st⟩, fun _ => rfl, rfl, rfl, ⟨rfl, rfl⟩, ⟨rfl, rfl, rfl, rfl⟩, rfl⟩

/-- Settles O15: a ticking step is the tick of what its execute phase left, and there only `Fx15` and `Fx18` have
written a timer. -/
theorem tickEndsEveryTickingStep : Obligations.TickEndsEveryTickingStep := by
  intro s h
  obtain ⟨u, hs, ⟨hp, rfl⟩ | ⟨addr, op, hp, rfl⟩ | ⟨i, hi, he, -⟩⟩ := ticking_step_cases h
  · exact ⟨_, hs, by simp [hp, tickDown_toNat]⟩
  · exact ⟨_, hs, by simp [hp, tickDown_toNat]⟩
  · obtain ⟨t, ht, hdt, hst⟩ := exec_timers i s.advancePc
    obtain rfl : u = t := Host.Outcome.next.inj (he.symm.trans ht)
    refine ⟨_, hs, fun x hx => ?_, fun hn => ?_, fun x hx => ?_, fun hn => ?_, fun x hx => ?_⟩
    · rw [State.timerTick_dt, tickDown_toNat, hdt, hi.unique hx]; rfl
    · have hne : ∀ x, i ≠ .setDT x := fun x e => hn x (e ▸ hi)
      rw [State.timerTick_dt, tickDown_toNat, hdt, dtAfter_of_ne_setDT _ hne]; rfl
    · rw [State.timerTick_st, tickDown_toNat, hst, hi.unique hx]; rfl
    · have hne : ∀ x, i ≠ .setST x := fun x e => hn x (e ▸ hi)
      rw [State.timerTick_st, tickDown_toNat, hst, stAfter_of_ne_setST _ hne]; rfl
    · rw [hi.unique hx] at he
      rw [State.reg_timerTick, exec_ldDT_reg he]; rfl

end Sys2Proof.Machine
end

section
/-! SUPPORT. Jumps and skips: what they leave, and the value they give PC (R101, R103 to R107). -/

namespace Sys2Proof.Machine

/-! ## What setting PC leaves -/

theorem State.setPc_sameOutsidePc (s : State) (w : Word) : SameOutsidePc s (s.setPc w) :=
  ⟨fun _ => rfl, rfl, rfl, ⟨rfl, rfl⟩, ⟨rfl, rfl⟩, ⟨rfl, rfl, rfl, rfl⟩, rfl⟩

/-- A skip sets PC, or leaves the whole state. -/
theorem State.skipIf_eq_setPc (s : State) (c : Bool) : s.skipIf c = s.setPc (if c then s.pc + 2 else s.pc) := by
  cases c <;> rfl

theorem State.skipIf_sameOutsidePc (s : State) (c : Bool) : SameOutsidePc s (s.skipIf c) :=
  s.skipIf_eq_setPc c ▸ s.setPc_sameOutsidePc _

/-! ## Jump targets -/

theorem toNat_addrOperand (nnn : Addr) : (addrOperand nnn).toNat = nnn.toNat :=
  BitVec.toNat_setWidth_of_le (by decide)

theorem toNat_wideReg (b : Byte) : (wideReg b).toNat = b.toNat :=
  BitVec.toNat_setWidth_of_le (by decide)

/-- The target of `Bnnn` is at most 0x10FE, so it does not wrap in the 16 bits of PC (R103). -/
theorem toNat_addrOperand_add_wideReg (nnn : Addr) (b : Byte) :
    (addrOperand nnn + wideReg b).toNat = nnn.toNat + b.toNat := by
  have hsum : nnn.toNat + b.toNat < 2 ^ 16 := by
    have := nnn.isLt
    have := b.isLt
    omega
  rw [BitVec.toNat_add, toNat_addrOperand, toNat_wideReg, Nat.mod_eq_of_lt hsum]

/-! ## Skip conditions, as comparisons of unsigned bytes -/

theorem State.skipIf_beq_pc (s : State) (a b : Byte) :
    (s.skipIf (a == b)).pc = if a.toNat = b.toNat then s.pc + 2 else s.pc := by
  simp only [State.skipIf_pc, beq_iff_eq, BitVec.toNat_inj]

theorem State.skipIf_bne_pc (s : State) (a b : Byte) :
    (s.skipIf (a != b)).pc = if a.toNat = b.toNat then s.pc else s.pc + 2 := by
  simp only [State.skipIf_pc, bne_iff_ne, BitVec.toNat_inj, ne_eq, ite_not]

/-- Settles O25: each of the four is a `skipIf` on the equality of two bytes, or on its negation. -/
theorem skipsAddTwoToPc : Obligations.SkipsAddTwoToPc := by
  intro x y nn s
  refine ⟨?seImm, ?sneImm, ?seReg, ?sneReg⟩
  case seImm => exact ⟨_, rfl, s.skipIf_sameOutsidePc _, s.skipIf_beq_pc _ _⟩
  case sneImm => exact ⟨_, rfl, s.skipIf_sameOutsidePc _, s.skipIf_bne_pc _ _⟩
  case seReg => exact ⟨_, rfl, s.skipIf_sameOutsidePc _, s.skipIf_beq_pc _ _⟩
  case sneReg => exact ⟨_, rfl, s.skipIf_sameOutsidePc _, s.skipIf_bne_pc _ _⟩

/-- Settles O24: both set PC to a target that fits in its 16 bits. -/
theorem jumpsSetPc : Obligations.JumpsSetPc := by
  intro nnn s
  constructor
  · exact ⟨_, rfl, toNat_addrOperand nnn, s.setPc_sameOutsidePc _⟩
  · exact ⟨_, rfl, toNat_addrOperand_add_wideReg nnn (s.reg 0), s.setPc_sameOutsidePc _⟩

end Sys2Proof.Machine
end

section
/-! SUPPORT. Register loads and the logic and immediate arithmetic that write Vx alone (R121 to R126). -/

namespace Sys2Proof.Machine

/-! ## What a register write leaves -/

theorem State.reg_setReg_self (s : State) (x : Reg) (b : Byte) : (s.setReg x b).reg x = b := by
  rw [State.reg_setReg, if_pos rfl]

theorem State.setReg_sameRegsBut (s : State) (x : Reg) (b : Byte) : SameRegsBut (· = x) s (s.setReg x b) := by
  intro r hr
  rw [State.reg_setReg, if_neg hr]

theorem State.setReg_sameOutsideRegs (s : State) (x : Reg) (b : Byte) : SameOutsideRegs s (s.setReg x b) :=
  ⟨fun _ => rfl, rfl, rfl, ⟨rfl, rfl⟩, ⟨rfl, rfl⟩, ⟨rfl, rfl, rfl, rfl⟩, rfl⟩

/-! ## What each instruction writes -/

/-- Settles O29: each of the five is one `setReg` of Vx, to nn, Vy, or a bitwise combination of Vx and Vy. -/
theorem loadAndLogicWriteOneRegister : Obligations.LoadAndLogicWriteOneRegister := by
  intro x y nn s
  refine ⟨?ldImm, ?ldReg, ?orReg, ?andReg, ?xorReg⟩
  case ldImm => exact ⟨_, rfl, s.reg_setReg_self _ _, s.setReg_sameRegsBut _ _, s.setReg_sameOutsideRegs _ _⟩
  case ldReg => exact ⟨_, rfl, s.reg_setReg_self _ _, s.setReg_sameRegsBut _ _, s.setReg_sameOutsideRegs _ _⟩
  case orReg =>
    refine ⟨_, rfl, s.setReg_sameRegsBut _ _, s.setReg_sameOutsideRegs _ _, fun k => ?_⟩
    rw [State.reg_setReg_self, BitVec.getLsbD_or]
  case andReg =>
    refine ⟨_, rfl, s.setReg_sameRegsBut _ _, s.setReg_sameOutsideRegs _ _, fun k => ?_⟩
    rw [State.reg_setReg_self, BitVec.getLsbD_and]
  case xorReg =>
    refine ⟨_, rfl, s.setReg_sameRegsBut _ _, s.setReg_sameOutsideRegs _ _, fun k => ?_⟩
    rw [State.reg_setReg_self, BitVec.getLsbD_xor]

/-- Settles O30: the byte written to Vx is a sum of bytes, which is the sum modulo 2 ^ 8. -/
theorem addImmediateWrapsWithoutFlag : Obligations.AddImmediateWrapsWithoutFlag := by
  intro x nn s
  refine ⟨_, rfl, ?_, s.setReg_sameRegsBut _ _, s.setReg_sameOutsideRegs _ _⟩
  rw [State.reg_setReg_self, BitVec.toNat_add]

end Sys2Proof.Machine
end

section
/-! SUPPORT. The address register: what setting I leaves, and the value `Annn` and `Fx1E` give it (R140, R141). -/

namespace Sys2Proof.Machine

/-! ## What setting I leaves -/

theorem State.setI_sameOutsideI (s : State) (w : Word) : SameOutsideI s (s.setI w) :=
  ⟨fun _ => rfl, rfl, rfl, ⟨rfl, rfl⟩, ⟨rfl, rfl⟩, ⟨rfl, rfl, rfl, rfl⟩, rfl⟩

/-! ## What each instruction gives I -/

/-- The sum of `Fx1E` wraps in the 16 bits of I, not in the 12 bits of an address (R141). -/
theorem toNat_add_wideReg (w : Word) (b : Byte) : (w + wideReg b).toNat = (w.toNat + b.toNat) % 65536 := by
  rw [BitVec.toNat_add, toNat_wideReg]

/-- Settles O35: both are one `setI`, to the operand nnn or to the 16-bit sum of I and Vx. -/
theorem addressRegisterLoadAndAdd : Obligations.AddressRegisterLoadAndAdd := by
  intro nnn x s
  constructor
  · exact ⟨_, rfl, toNat_addrOperand nnn, s.setI_sameOutsideI _⟩
  · exact ⟨_, rfl, toNat_add_wideReg s.i (s.reg x), s.setI_sameOutsideI _⟩

end Sys2Proof.Machine
end

section
/-! SUPPORT. Clearing the framebuffer: its meaning, and what replacing the framebuffer leaves (R160). -/

namespace Sys2Proof.Machine

/-- `00E0` replaces the framebuffer by the clear one and does nothing else (R160). -/
theorem exec_cls (s : State) : exec .cls s = .next { s with fb := Framebuffer.clear } := rfl

theorem State.withFb_sameOutsideFb (s : State) (fb : Framebuffer) : SameOutsideFb s { s with fb := fb } :=
  ⟨fun _ => rfl, rfl, rfl, rfl, ⟨rfl, rfl⟩, ⟨rfl, rfl⟩, rfl, rfl, rfl, rfl⟩

/-- Settles O44: no cell of the clear framebuffer is set, and replacing the framebuffer leaves every other item. -/
theorem clearUnsetsEveryCell : Obligations.ClearUnsetsEveryCell := by
  intro s
  exact ⟨_, exec_cls s, fun c _ r _ => cell_clear c r, s.withFb_sameOutsideFb Framebuffer.clear⟩

end Sys2Proof.Machine
end

section
/-! SUPPORT. The keypad wait and the timer instructions: the scan read as keypad bits, the step of an instruction that
raises nothing, and the two obligations about them (R172 to R175). -/

namespace Sys2Proof.Machine

/-! ## The scan of the keypad -/

section
variable {s : State}

theorem State.keyDown_val (s : State) (k : Fin 16) : s.keyDown k.val = s.key.get k := dif_pos k.isLt

theorem State.lowestKey_of_least {k : Fin 16} (hk : s.key.get k = true) (hl : ∀ j < k, s.key.get j = false) :
    s.lowestKey = some k.val := by
  refine (s.lowestKey_eq_some_iff k.val).2 ⟨by rw [State.keyDown_val, hk], fun j hj => ?_⟩
  rw [s.keyDown_val ⟨j, hj.trans k.isLt⟩]
  exact hl _ hj

theorem State.lowestKey_of_no_key (h : ∀ k : Fin 16, s.key.get k = false) : s.lowestKey = none := by
  refine Option.eq_none_iff_forall_ne_some.2 fun k hk => ?_
  obtain ⟨hd, -⟩ := (s.lowestKey_eq_some_iff k).1 hk
  rw [s.keyDown_val ⟨k, State.keyDown_lt hd⟩, h] at hd
  exact Bool.false_ne_true hd

/-! ## The key wait -/

/-- `Fx0A` with a key to take (R175). -/
theorem exec_waitKey_of_key {k : Nat} (x : Reg) (h : s.lowestKey = some k) :
    exec (.waitKey x) s = .next (s.setReg x (BitVec.ofNat 8 k)) := by
  simp only [exec, execWaitKey, h]

/-- `Fx0A` with nothing to take (R175). -/
theorem exec_waitKey_of_no_key (x : Reg) (h : s.lowestKey = none) : exec (.waitKey x) s = .next s.rewindPc := by
  simp only [exec, execWaitKey, h]

theorem State.rewindPc_sameOutsidePc (s : State) : SameOutsidePc s s.rewindPc := s.setPc_sameOutsidePc _

/-- The rewind undoes the advance of the fetch, whatever PC is (R175). -/
theorem State.rewindPc_advancePc (s : State) : s.advancePc.rewindPc = s := by
  have hpc : s.pc + 2 - 2 = s.pc := BitVec.add_sub_cancel _ _
  rw [State.rewindPc, State.advancePc_pc, hpc]
  rfl

/-! ## The timer tick, and the step of an instruction that raises nothing -/

theorem State.timerTick_timersFallenBy (s : State) : TimersFallenBy 1 s s.timerTick :=
  ⟨tickDown_toNat s.dt, tickDown_toNat s.st⟩

theorem State.timerTick_sameOutsideTimers (s : State) : SameOutsideTimers s s.timerTick :=
  ⟨fun _ => rfl, rfl, rfl, rfl, ⟨rfl, rfl⟩, ⟨rfl, rfl, rfl, rfl⟩, rfl⟩

/-- What the next step does does not depend on the timers. -/
theorem phase_timerTick (s : State) : phase s.timerTick = phase s := rfl

theorem State.AboutTo.noFault {i : Instr} (h : s.AboutTo i) : s.NoFault := by
  obtain ⟨hf, -⟩ := (phase_eq_execute_iff s i).1 h
  exact hf

/-- The whole step of an instruction that leaves the latch as it was: the tick of what the execute phase answers. -/
theorem step_of_exec {u : State} {i : Instr} (h : s.AboutTo i) (he : exec i s.advancePc = .next u)
    (hf : u.fault = s.fault) : step s = .next u.timerTick := by
  rw [step_of_aboutTo h, he, commit_next_of_none (hf.trans h.noFault)]

theorem stepOutcome_of_exec {u : State} {i : Instr} (h : s.AboutTo i) (he : exec i s.advancePc = .next u)
    (hf : u.fault = s.fault) : stepOutcome s = .ok := by
  have hr : raised (exec i s.advancePc) = none := by rw [he, raised, hf, h.noFault]
  simp only [stepOutcome, h, hr]

end

/-- Settles O49: the scan finds the least pressed key; with none pressed the rewind undoes the advance of the fetch, so
the whole step is the tick. -/
theorem keyWaitTakesLeastKeyOrRewinds : Obligations.KeyWaitTakesLeastKeyOrRewinds := by
  intro x s
  refine ⟨fun k hk hl => ?pressed, fun hn => ⟨?rewinds, fun h => ?wholeStep⟩⟩
  case pressed =>
    refine ⟨_, exec_waitKey_of_key x (State.lowestKey_of_least hk hl), ?_, s.setReg_sameRegsBut _ _,
      s.setReg_sameOutsideRegs _ _⟩
    have hbyte : k.val < 2 ^ 8 := k.isLt.trans (by decide)
    rw [State.reg_setReg_self, BitVec.toNat_ofNat, Nat.mod_eq_of_lt hbyte]
  case rewinds =>
    exact ⟨_, exec_waitKey_of_no_key x (State.lowestKey_of_no_key hn), s.rewindPc_pc, s.rewindPc_sameOutsidePc⟩
  case wholeStep =>
    have hn' : s.advancePc.lowestKey = none := State.lowestKey_of_no_key hn
    have he : exec (.waitKey x) s.advancePc = .next s := by
      rw [exec_waitKey_of_no_key x hn', State.rewindPc_advancePc]
    exact ⟨stepOutcome_of_exec h he rfl, s.timerTick, step_of_exec h he rfl, s.timerTick_timersFallenBy,
      s.timerTick_sameOutsideTimers, (phase_timerTick s).trans h⟩

/-! ## The meaning of the timer instructions -/

theorem exec_ldDT (x : Reg) (s : State) : exec (.ldDT x) s = .next (s.setReg x s.dt) := rfl

theorem exec_setDT (x : Reg) (s : State) : exec (.setDT x) s = .next { s with dt := s.reg x } := rfl

theorem exec_setST (x : Reg) (s : State) : exec (.setST x) s = .next { s with st := s.reg x } := rfl

/-- Settles O51: each of the three steps is the tick of what its execute phase leaves, so a timer falls by one from the
value that was read from it or written to it. -/
theorem timerInstructionsComeBeforeTheTick : Obligations.TimerInstructionsComeBeforeTheTick := by
  intro x s
  refine ⟨fun h => ?ldDT, fun h => ?setDT, fun h => ?setST⟩
  case ldDT =>
    exact ⟨_, step_of_exec h (exec_ldDT x _) rfl, State.reg_setReg_self _ _ _, tickDown_toNat s.dt,
      tickDown_toNat s.st, s.advancePc.setReg_sameRegsBut _ _, rfl⟩
  case setDT =>
    exact ⟨_, step_of_exec h (exec_setDT x _) rfl, tickDown_toNat (s.reg x), tickDown_toNat s.st, rfl, rfl⟩
  case setST =>
    exact ⟨_, step_of_exec h (exec_setST x _) rfl, tickDown_toNat (s.reg x), tickDown_toNat s.dt, rfl, rfl⟩

end Sys2Proof.Machine
end

section
/-! SUPPORT. The host interface: what `load` and `setKey` do (R191, R194), and that neither the machine nor any other host
operation writes the keypad. -/

namespace Sys2Proof.Machine

/-! ## Loading a program (R191) -/

/-- `s` with a program copied to the entry point on, and PC there. -/
def State.loaded (s : State) (rom : List Byte) : State :=
  { s with mem := s.mem.setBytes 0x200 rom, pc := 0x200 }

section
variable {s t : State} {rom : List Byte}

theorem State.load_of_le (h : rom.length ≤ 3584) : s.load rom = .accepted (s.loaded rom) :=
  if_neg (Nat.not_lt_of_le h)

theorem State.load_of_lt (h : 3584 < rom.length) : s.load rom = .rejected := if_pos h

theorem State.eq_loaded_of_load (h : s.load rom = .accepted t) : t = s.loaded rom := by
  obtain hlt | hle := Nat.lt_or_ge 3584 rom.length
  · exact nomatch h.symm.trans (State.load_of_lt hlt)
  · exact LoadResult.accepted.inj (h.symm.trans (State.load_of_le hle))

/-- The longest image accepted ends at the last address of memory. -/
theorem entry_add_le_memSize (h : rom.length ≤ 3584) : 0x200 + rom.length ≤ Config.memSize :=
  Nat.add_le_add_left h 0x200

end

/-- Settles O53: the image is one run of bytes written at 0x200, and one of at most 3584 bytes ends inside memory. -/
theorem loadCopiesProgramOrRejects : Obligations.LoadCopiesProgramOrRejects := by
  intro rom s hm
  refine ⟨fun hle => ⟨s.loaded rom, State.load_of_le hle, rfl, ?canonical, ?copied, ?kept, rfl, rfl, ⟨rfl, rfl⟩,
    ⟨rfl, rfl⟩, ⟨rfl, rfl, rfl, rfl⟩, rfl⟩, State.load_of_lt⟩
  case canonical => exact Memory.wf_setBytes rom hm (entry_add_le_memSize hle)
  case copied => exact fun k hk => Memory.byteAt_setBytes_inside rom k hm (entry_add_le_memSize hle) hk
  case kept => exact fun a ha => Memory.byteAt_setBytes_outside s.mem rom ha

/-! ## Setting a key (R194) -/

section
variable (s : State) {index : Nat} (pressed : Bool)

theorem State.setKey_of_lt (h : index < 16) :
    s.setKey index pressed = { s with key := s.key.set index pressed h } := dif_pos h

theorem State.setKey_of_le (h : 16 ≤ index) : s.setKey index pressed = s := dif_neg (Nat.not_lt_of_le h)

theorem State.setKey_get_self (h : index < 16) : (s.setKey index pressed).key.get ⟨index, h⟩ = pressed := by
  rw [State.setKey_of_lt s pressed h]
  exact Vector.getElem_set_self h

theorem State.setKey_get_ne {k : Fin 16} (hk : k.val ≠ index) :
    (s.setKey index pressed).key.get k = s.key.get k := by
  obtain h | h := Nat.lt_or_ge index 16
  · rw [State.setKey_of_lt s pressed h]
    exact Vector.getElem_set_ne h k.isLt hk.symm
  · rw [State.setKey_of_le s pressed h]

theorem State.setKey_eq_withKey :
    s.setKey index pressed = { s with key := (s.setKey index pressed).key } := by
  obtain h | h := Nat.lt_or_ge index 16
  · rw [State.setKey_of_lt s pressed h]
  · rw [State.setKey_of_le s pressed h]

theorem State.setKey_of_get_eq {pressed : Bool} (h : index < 16) (hk : s.key.get ⟨index, h⟩ = pressed) :
    s.setKey index pressed = s := by
  have hset : s.key.set index pressed h = s.key := hk ▸ Vector.set_getElem_self h
  rw [State.setKey_of_lt s pressed h, hset]

theorem State.setKey_setKey (before : Bool) :
    (s.setKey index before).setKey index pressed = s.setKey index pressed := by
  obtain h | h := Nat.lt_or_ge index 16
  · simp only [State.setKey_of_lt _ _ h, Vector.set_set]
  · rw [State.setKey_of_le s before h]

end

/-! ## Nothing else writes the keypad (R20, R194) -/

section
variable {s t : State}

theorem State.pop_key {w : Word} (h : s.pop = some (w, t)) : t.key = s.key := by
  obtain ⟨n, hn, -, -, rfl⟩ := State.pop_eq_some h
  rfl

theorem State.push_key {w : Word} (h : s.push w = some t) : t.key = s.key := by
  obtain ⟨hs, rfl⟩ := State.push_eq_some h
  rfl

theorem exec_key (i : Instr) (s : State) : ∃ t, exec i s = .next t ∧ t.key = s.key := by
  cases i with
  | ret =>
    obtain ⟨w, u, hp, he⟩ | ⟨-, he⟩ := execRet_cases s
    · exact ⟨_, he, (u.setPc_key _).trans (State.pop_key hp)⟩
    · exact ⟨_, he, rfl⟩
  | call nnn =>
    obtain ⟨u, hp, he⟩ | ⟨-, he⟩ := execCall_cases s nnn
    · exact ⟨_, he, (u.setPc_key _).trans (State.push_key hp)⟩
    · exact ⟨_, he, rfl⟩
  | skp x =>
    obtain ⟨-, he⟩ | ⟨-, he⟩ := execSkp_cases s x
    · exact ⟨_, he, State.skipIf_key ..⟩
    · exact ⟨_, he, rfl⟩
  | sknp x =>
    obtain ⟨-, he⟩ | ⟨-, he⟩ := execSknp_cases s x
    · exact ⟨_, he, State.skipIf_key ..⟩
    · exact ⟨_, he, rfl⟩
  | drw x y n => obtain ⟨_, _, -, -, he⟩ | ⟨-, he⟩ := execDrw_cases s x y n <;> exact ⟨_, he, rfl⟩
  | bcd x => obtain ⟨_, -, he⟩ | ⟨-, he⟩ := execBcd_cases s x <;> exact ⟨_, he, rfl⟩
  | storeRegs x => obtain ⟨_, -, he⟩ | ⟨-, he⟩ := execStoreRegs_cases s x <;> exact ⟨_, he, rfl⟩
  | loadRegs x => obtain ⟨_, -, he⟩ | ⟨-, he⟩ := execLoadRegs_cases s x <;> exact ⟨_, he, rfl⟩
  | waitKey x => obtain ⟨_, -, he⟩ | ⟨-, he⟩ := execWaitKey_cases s x <;> exact ⟨_, he, rfl⟩
  | seImm | sneImm | seReg | sneReg => exact ⟨_, rfl, State.skipIf_key ..⟩
  | cls | jp | ldImm | addImm | ldReg | orReg | andReg | xorReg | addReg | subReg | shr | subn | shl | ldI | jpV0 | rnd
  | ldDT | setDT | setST | addI | ldFont => exact ⟨_, rfl, rfl⟩

/-- However a step that began in `s` ends, its keypad is `s`'s if the execute phase left it. -/
theorem commit_key {u : State} (h : u.key = s.key) : ∃ t, commit s (.next u) = .next t ∧ t.key = s.key := by
  cases hf : u.fault with
  | none => exact ⟨u.timerTick, commit_next_of_none hf, h⟩
  | some c => exact ⟨s.raise c, commit_next_of_some hf, rfl⟩

theorem step_of_latched {c : Fault} (h : phase s = .latched c) : step s = .next s := by
  simp only [step, cycle, h]

theorem step_of_idle (h : phase s = .idle) : step s = .next s := by
  simp only [step, cycle, h]

theorem step_of_fetchFault (h : phase s = .fetchFault) : step s = .next (s.raise .fetchOutOfRange) := by
  simp only [step, cycle, h]

theorem step_key (s : State) : ∃ t, step s = .next t ∧ t.key = s.key := by
  cases hp : phase s with
  | latched c => exact ⟨s, step_of_latched hp, rfl⟩
  | idle => exact ⟨s, step_of_idle hp, rfl⟩
  | halted => exact ⟨_, step_of_halted hp, rfl⟩
  | fetchFault => exact ⟨_, step_of_fetchFault hp, rfl⟩
  | unrecognized addr op => exact ⟨_, step_of_unrecognized hp, rfl⟩
  | execute i =>
    obtain ⟨u, he, hk⟩ := exec_key i s.advancePc
    rw [step_of_aboutTo hp, he]
    exact commit_key hk

theorem key_of_step (h : step s = .next t) : t.key = s.key := by
  obtain ⟨u, hu, hk⟩ := step_key s
  obtain rfl : t = u := Host.Outcome.next.inj (h.symm.trans hu)
  exact hk

theorem State.togglePause_key (s : State) : s.togglePause.key = s.key := by
  unfold State.togglePause
  cases s.run <;> rfl

theorem State.key_of_load {rom : List Byte} (h : s.load rom = .accepted t) : t.key = s.key := by
  rw [State.eq_loaded_of_load h]
  rfl

end

/-- Settles O54: below 16 `setKey` is one write of the key vector, and no update the other operations make is one. -/
theorem setKeyWritesOneKey : Obligations.SetKeyWritesOneKey := by
  intro index pressed s
  exact ⟨s.setKey_get_self pressed, fun _ hk => s.setKey_get_ne pressed hk, s.setKey_eq_withKey pressed,
    s.setKey_of_le pressed, s.setKey_of_get_eq, s.setKey_setKey pressed, fun _ => key_of_step, s.togglePause_key, rfl,
    fun _ _ => State.key_of_load⟩

end Sys2Proof.Machine
end

section
/-! SUPPORT. The decoder and the encoder: each undoes the other, the masks and matches of the opcode table, and the
words that are no instruction (R60 to R68). -/

namespace Sys2Proof

/-! ## Decoding an encoded instruction -/

theorem ofNat_toNat_rowCount {n : Nat} (h : n ≤ 15) : (BitVec.ofNat 4 n).toNat = n := by
  rw [BitVec.toNat_ofNat, Nat.mod_eq_of_lt (Nat.lt_succ_of_le h)]

theorem decode_encode {i : Instr} (h : i.wellFormed = true) : decode (encode i) = .instr i := by
  cases i with
  | cls | ret => decide
  | jp | call | ldI | jpV0 => simp [encode, decode]
  | seImm | sneImm | ldImm | addImm | rnd => simp [encode, decode]
  | seReg | sneReg => simp [encode, decode]
  | ldReg | orReg | andReg | xorReg | addReg | subReg | shr | subn | shl => simp [encode, decode, decodeFam8]
  | drw x y n => simp [encode, decode, ofNat_toNat_rowCount (of_decide_eq_true h)]
  | skp | sknp => simp [encode, decode, decodeFamE]
  | ldDT | waitKey | setDT | setST | addI | ldFont | bcd | storeRegs | loadRegs => simp [encode, decode, decodeFamF]

/-- The decoder on the two bytes of an opcode is the decoder on the opcode (R42, R60). -/
theorem decodeBytes_of_decode {op : Word} {i : Instr} (h : decode op = .instr i) (rest : List Byte) :
    decodeBytes (highByte op :: lowByte op :: rest) = .instr i rest := by
  simp only [decodeBytes, Machine.opcodeOf_bytes, h]

/-- Settles O1: the fields of an assembled opcode read back select the instruction's own branch of the decoder. -/
theorem encodeDecodeRoundTrip : Obligations.EncodeDecodeRoundTrip := by
  intro i rest h
  exact ⟨decode_encode h, decodeBytes_of_decode (decode_encode h) rest⟩

/-! ## Encoding a decoded word -/

section
variable {op : Word} {f n : Nibble}

theorem asmNNN_of_fam (hf : fieldFam op = f) : asmNNN f (fieldNNN op) = op := by
  rw [← hf, asmNNN_fields]

theorem asmXNN_of_fam (hf : fieldFam op = f) : asmXNN f (regOf (fieldX op)) (fieldNN op) = op := by
  rw [← hf, asmXNN_fields]

theorem asmXNN_of_fam_nn {nn : Byte} (h : fieldFam op = f ∧ fieldNN op = nn) :
    asmXNN f (regOf (fieldX op)) nn = op := by
  rw [← h.1, ← h.2, asmXNN_fields]

theorem asmXY_of_fam_n (h : fieldFam op = f ∧ fieldN op = n) :
    asmXY f (regOf (fieldX op)) (regOf (fieldY op)) n = op := by
  rw [← h.1, ← h.2, asmXY_fields]

/-- What the decoder answers for the word `op`, if it is an instruction, is well formed and has `op` as its opcode. -/
def Decoded.Reencodes (op : Word) (d : Decoded) : Prop :=
  ∀ i, d = .instr i → i.wellFormed = true ∧ encode i = op

theorem Decoded.Reencodes.instr {i : Instr} (h : i.wellFormed = true) (he : encode i = op) :
    Decoded.Reencodes op (.instr i) := by
  rintro j ⟨⟩
  exact ⟨h, he⟩

theorem Decoded.Reencodes.unrecognized : Decoded.Reencodes op (.unrecognized op) := fun _ h => nomatch h

theorem Decoded.Reencodes.ite {p : Prop} [Decidable p] {d e : Decoded} (hd : p → d.Reencodes op)
    (he : ¬ p → e.Reencodes op) : Decoded.Reencodes op (if p then d else e) := iteInduction hd he

theorem decodeFam0_reencodes (op : Word) : (decodeFam0 op).Reencodes op := by
  unfold decodeFam0
  exact .ite (fun h => .instr rfl h.symm) fun _ => .ite (fun h => .instr rfl h.symm) fun _ => .unrecognized

theorem decodeFam8_reencodes (hf : fieldFam op = 0x8) : (decodeFam8 op).Reencodes op := by
  unfold decodeFam8
  iterate 9 refine .ite (fun hn => .instr rfl (asmXY_of_fam_n ⟨hf, hn⟩)) fun _ => ?_
  exact .unrecognized

theorem decodeFamE_reencodes (hf : fieldFam op = 0xE) : (decodeFamE op).Reencodes op := by
  unfold decodeFamE
  iterate 2 refine .ite (fun hn => .instr rfl (asmXNN_of_fam_nn ⟨hf, hn⟩)) fun _ => ?_
  exact .unrecognized

theorem decodeFamF_reencodes (hf : fieldFam op = 0xF) : (decodeFamF op).Reencodes op := by
  unfold decodeFamF
  iterate 9 refine .ite (fun hn => .instr rfl (asmXNN_of_fam_nn ⟨hf, hn⟩)) fun _ => ?_
  exact .unrecognized

/-- `Dxyn` keeps its row count as a number below 16. -/
theorem drw_reencodes (hf : fieldFam op = 0xD) :
    Decoded.Reencodes op (.instr (.drw (regOf (fieldX op)) (regOf (fieldY op)) (fieldN op).toNat)) := by
  refine .instr (decide_eq_true (Nat.le_of_lt_succ (fieldN op).isLt)) ?_
  rw [encode, BitVec.ofNat_toNat, BitVec.setWidth_eq]
  exact asmXY_of_fam_n ⟨hf, rfl⟩

theorem decode_reencodes (op : Word) : (decode op).Reencodes op := by
  unfold decode
  refine .ite (fun _ => decodeFam0_reencodes op) fun h0 => ?_
  refine .ite (fun h => .instr rfl (asmNNN_of_fam h)) fun h1 => ?_
  refine .ite (fun h => .instr rfl (asmNNN_of_fam h)) fun h2 => ?_
  refine .ite (fun h => .instr rfl (asmXNN_of_fam h)) fun h3 => ?_
  refine .ite (fun h => .instr rfl (asmXNN_of_fam h)) fun h4 => ?_
  refine .ite (fun h => .ite (fun hn => .instr rfl (asmXY_of_fam_n ⟨h, hn⟩)) fun _ => .unrecognized) fun h5 => ?_
  refine .ite (fun h => .instr rfl (asmXNN_of_fam h)) fun h6 => ?_
  refine .ite (fun h => .instr rfl (asmXNN_of_fam h)) fun h7 => ?_
  refine .ite (fun h => decodeFam8_reencodes h) fun h8 => ?_
  refine .ite (fun h => .ite (fun hn => .instr rfl (asmXY_of_fam_n ⟨h, hn⟩)) fun _ => .unrecognized) fun h9 => ?_
  refine .ite (fun h => .instr rfl (asmNNN_of_fam h)) fun hA => ?_
  refine .ite (fun h => .instr rfl (asmNNN_of_fam h)) fun hB => ?_
  refine .ite (fun h => .instr rfl (asmXNN_of_fam h)) fun hC => ?_
  refine .ite (fun h => drw_reencodes h) fun hD => ?_
  refine .ite (fun h => decodeFamE_reencodes h) fun hE => ?_
  have hF : fieldFam op = 0xF := by bv_omega
  exact decodeFamF_reencodes hF

theorem encode_of_decode {i : Instr} (h : decode op = .instr i) : encode i = op := (decode_reencodes op i h).2

end

/-- Settles O2: in each branch of the decoder the fields tested and the fields kept are all the bits of the word. -/
theorem decodedWordsReencode : Obligations.DecodedWordsReencode := fun op => decode_reencodes op

/-! ## The rows of the opcode table -/

theorem encode_mask (i : Instr) : encode i &&& i.mask = i.pattern := by
  cases i with
  | cls => exact Laws.EncodesInRow.cls
  | ret => exact Laws.EncodesInRow.ret
  | jp | call | ldI | jpV0 => exact asmNNN_mask _ _
  | seImm | sneImm | ldImm | addImm | rnd => exact asmXNN_mask _ _ _
  | seReg | sneReg | ldReg | orReg | andReg | xorReg | addReg | subReg | shr | subn | shl =>
    exact asmXY_mask_low _ _ _ _
  | drw => exact asmXY_mask _ _ _ _
  | skp | sknp | ldDT | waitKey | setDT | setST | addI | ldFont | bcd | storeRegs | loadRegs =>
    exact asmXNN_mask_low _ _ _

section
variable {op p : Word}

theorem fieldFam_and (a b : Word) : fieldFam (a &&& b) = fieldFam a &&& fieldFam b := BitVec.extractLsb'_and

theorem fieldN_and (a b : Word) : fieldN (a &&& b) = fieldN a &&& fieldN b := BitVec.extractLsb'_and

theorem fieldNN_and (a b : Word) : fieldNN (a &&& b) = fieldNN a &&& fieldNN b := BitVec.extractLsb'_and

/-- A mask whose first digit is F keeps the family. -/
theorem fieldFam_congr_mask {m : Word} (hm : fieldFam m = 0xF#4) (h : op &&& m = p &&& m) :
    fieldFam op = fieldFam p := by
  have hf : fieldFam op &&& 0xF#4 = fieldFam p &&& 0xF#4 := by rw [← hm, ← fieldFam_and, ← fieldFam_and, h]
  exact (BitVec.and_allOnes.symm.trans hf).trans BitVec.and_allOnes

theorem fieldN_congr_mask {m : Word} (hm : fieldN m = 0xF#4) (h : op &&& m = p &&& m) : fieldN op = fieldN p := by
  have hn : fieldN op &&& 0xF#4 = fieldN p &&& 0xF#4 := by rw [← hm, ← fieldN_and, ← fieldN_and, h]
  exact (BitVec.and_allOnes.symm.trans hn).trans BitVec.and_allOnes

theorem fieldNN_congr_mask {m : Word} (hm : fieldNN m = 0xFF#8) (h : op &&& m = p &&& m) :
    fieldNN op = fieldNN p := by
  have hn : fieldNN op &&& 0xFF#8 = fieldNN p &&& 0xFF#8 := by rw [← hm, ← fieldNN_and, ← fieldNN_and, h]
  exact (BitVec.and_allOnes.symm.trans hn).trans BitVec.and_allOnes

/-- The rows whose match fixes the family only. -/
theorem fam_of_mask {f : Nibble} (h : op &&& 0xF000#16 = f ++ 0#12) : fieldFam op = f := by
  rw [← asmNNN_mask f 0] at h
  exact (fieldFam_congr_mask (by decide) h).trans (fieldFam_asmNNN f 0)

/-- The rows whose match fixes the family and the last digit. -/
theorem fam_n_of_mask {f n : Nibble} (h : op &&& 0xF00F#16 = f ++ 0#8 ++ n) : fieldFam op = f ∧ fieldN op = n := by
  rw [← asmXY_mask_low f 0 0 n] at h
  exact ⟨(fieldFam_congr_mask (by decide) h).trans (fieldFam_asmXY f 0 0 n),
    (fieldN_congr_mask (by decide) h).trans (fieldN_asmXY f 0 0 n)⟩

/-- The rows whose match fixes the family and the low byte. -/
theorem fam_nn_of_mask {f : Nibble} {nn : Byte} (h : op &&& 0xF0FF#16 = f ++ 0#4 ++ nn) :
    fieldFam op = f ∧ fieldNN op = nn := by
  rw [← asmXNN_mask_low f 0 nn] at h
  exact ⟨(fieldFam_congr_mask (by decide) h).trans (fieldFam_asmXNN f 0 nn),
    (fieldNN_congr_mask (by decide) h).trans (fieldNN_asmXNN f 0 nn)⟩

/-- A word with the match of a row under its mask is the opcode of an instruction of that row: the one that has the
word's own operand fields. -/
theorem exists_encode_of_mask {i : Instr} (h : op &&& i.mask = i.pattern) :
    ∃ j : Instr, j.wellFormed = true ∧ encode j = op ∧ j.pattern = i.pattern := by
  cases i with
  | cls => exact ⟨.cls, rfl, h.symm.trans BitVec.and_allOnes, rfl⟩
  | ret => exact ⟨.ret, rfl, h.symm.trans BitVec.and_allOnes, rfl⟩
  | jp => exact ⟨.jp _, rfl, asmNNN_of_fam (fam_of_mask h), rfl⟩
  | call => exact ⟨.call _, rfl, asmNNN_of_fam (fam_of_mask h), rfl⟩
  | ldI => exact ⟨.ldI _, rfl, asmNNN_of_fam (fam_of_mask h), rfl⟩
  | jpV0 => exact ⟨.jpV0 _, rfl, asmNNN_of_fam (fam_of_mask h), rfl⟩
  | seImm => exact ⟨.seImm _ _, rfl, asmXNN_of_fam (fam_of_mask h), rfl⟩
  | sneImm => exact ⟨.sneImm _ _, rfl, asmXNN_of_fam (fam_of_mask h), rfl⟩
  | ldImm => exact ⟨.ldImm _ _, rfl, asmXNN_of_fam (fam_of_mask h), rfl⟩
  | addImm => exact ⟨.addImm _ _, rfl, asmXNN_of_fam (fam_of_mask h), rfl⟩
  | rnd => exact ⟨.rnd _ _, rfl, asmXNN_of_fam (fam_of_mask h), rfl⟩
  | drw =>
    obtain ⟨hw, he⟩ := drw_reencodes (fam_of_mask h) _ rfl
    exact ⟨_, hw, he, rfl⟩
  | seReg => exact ⟨.seReg _ _, rfl, asmXY_of_fam_n (fam_n_of_mask h), rfl⟩
  | ldReg => exact ⟨.ldReg _ _, rfl, asmXY_of_fam_n (fam_n_of_mask h), rfl⟩
  | orReg => exact ⟨.orReg _ _, rfl, asmXY_of_fam_n (fam_n_of_mask h), rfl⟩
  | andReg => exact ⟨.andReg _ _, rfl, asmXY_of_fam_n (fam_n_of_mask h), rfl⟩
  | xorReg => exact ⟨.xorReg _ _, rfl, asmXY_of_fam_n (fam_n_of_mask h), rfl⟩
  | addReg => exact ⟨.addReg _ _, rfl, asmXY_of_fam_n (fam_n_of_mask h), rfl⟩
  | subReg => exact ⟨.subReg _ _, rfl, asmXY_of_fam_n (fam_n_of_mask h), rfl⟩
  | shr => exact ⟨.shr _ _, rfl, asmXY_of_fam_n (fam_n_of_mask h), rfl⟩
  | subn => exact ⟨.subn _ _, rfl, asmXY_of_fam_n (fam_n_of_mask h), rfl⟩
  | shl => exact ⟨.shl _ _, rfl, asmXY_of_fam_n (fam_n_of_mask h), rfl⟩
  | sneReg => exact ⟨.sneReg _ _, rfl, asmXY_of_fam_n (fam_n_of_mask h), rfl⟩
  | skp => exact ⟨.skp _, rfl, asmXNN_of_fam_nn (fam_nn_of_mask h), rfl⟩
  | sknp => exact ⟨.sknp _, rfl, asmXNN_of_fam_nn (fam_nn_of_mask h), rfl⟩
  | ldDT => exact ⟨.ldDT _, rfl, asmXNN_of_fam_nn (fam_nn_of_mask h), rfl⟩
  | waitKey => exact ⟨.waitKey _, rfl, asmXNN_of_fam_nn (fam_nn_of_mask h), rfl⟩
  | setDT => exact ⟨.setDT _, rfl, asmXNN_of_fam_nn (fam_nn_of_mask h), rfl⟩
  | setST => exact ⟨.setST _, rfl, asmXNN_of_fam_nn (fam_nn_of_mask h), rfl⟩
  | addI => exact ⟨.addI _, rfl, asmXNN_of_fam_nn (fam_nn_of_mask h), rfl⟩
  | ldFont => exact ⟨.ldFont _, rfl, asmXNN_of_fam_nn (fam_nn_of_mask h), rfl⟩
  | bcd => exact ⟨.bcd _, rfl, asmXNN_of_fam_nn (fam_nn_of_mask h), rfl⟩
  | storeRegs => exact ⟨.storeRegs _, rfl, asmXNN_of_fam_nn (fam_nn_of_mask h), rfl⟩
  | loadRegs => exact ⟨.loadRegs _, rfl, asmXNN_of_fam_nn (fam_nn_of_mask h), rfl⟩

theorem exists_decode_of_mask {i : Instr} (h : op &&& i.mask = i.pattern) :
    ∃ j, decode op = .instr j ∧ j.pattern = i.pattern := by
  obtain ⟨j, hw, rfl, hj⟩ := exists_encode_of_mask h
  exact ⟨j, decode_encode hw, hj⟩

end

/-- Settles O3: a decoded word is the opcode of its instruction, and a word in a row is the opcode of an instruction of
that row; two rows of one word are then both the row of what it decodes to. -/
theorem decodeFollowsOpcodeTable : Obligations.DecodeFollowsOpcodeTable := by
  refine ⟨fun op i h => ?decoded, fun op i h => exists_decode_of_mask h, fun op i j hi hj => ?oneRow⟩
  case decoded => rw [← encode_of_decode h, encode_mask]
  case oneRow =>
    obtain ⟨k, hk, hki⟩ := exists_decode_of_mask hi
    obtain ⟨l, hl, hlj⟩ := exists_decode_of_mask hj
    obtain rfl : k = l := Decoded.instr.inj (hk.symm.trans hl)
    rw [← hki, hlj]

/-! ## The words that are no instruction (R66) -/

section
variable {op : Word}

theorem instr_ite_eq_unrecognized_iff {p : Prop} [Decidable p] {i : Instr} {d : Decoded} :
    (if p then .instr i else d) = .unrecognized op ↔ ¬ p ∧ d = .unrecognized op := by
  split <;> simp [*]

theorem decodeFam0_eq_unrecognized_iff :
    decodeFam0 op = .unrecognized op ↔ op ≠ 0x00E0 ∧ op ≠ 0x00EE := by
  simp only [decodeFam0, instr_ite_eq_unrecognized_iff, and_true, ne_eq]

theorem decodeFam8_eq_unrecognized_iff :
    decodeFam8 op = .unrecognized op ↔ fieldN op ∉ [0x0, 0x1, 0x2, 0x3, 0x4, 0x5, 0x6, 0x7, 0xE] := by
  simp only [decodeFam8, instr_ite_eq_unrecognized_iff, List.mem_cons, List.not_mem_nil, or_false, not_or, and_true]

theorem decodeFamE_eq_unrecognized_iff : decodeFamE op = .unrecognized op ↔ fieldNN op ∉ [0x9E, 0xA1] := by
  simp only [decodeFamE, instr_ite_eq_unrecognized_iff, List.mem_cons, List.not_mem_nil, or_false, not_or, and_true]

theorem decodeFamF_eq_unrecognized_iff :
    decodeFamF op = .unrecognized op ↔
      fieldNN op ∉ [0x07, 0x0A, 0x15, 0x18, 0x1E, 0x29, 0x33, 0x55, 0x65] := by
  simp only [decodeFamF, instr_ite_eq_unrecognized_iff, List.mem_cons, List.not_mem_nil, or_false, not_or, and_true]

/-- A word of a given family is given by its field nnn. -/
theorem eq_iff_fieldNNN_eq {w : Word} (h : fieldFam op = fieldFam w) : op = w ↔ fieldNNN op = fieldNNN w := by
  refine ⟨fun e => e ▸ rfl, fun e => ?_⟩
  rw [← asmNNN_fields op, h, e, asmNNN_fields]

/-- The last digits of family 8 that name no instruction. -/
theorem not_mem_fam8_digits (d : Nibble) :
    d ∉ ([0x0, 0x1, 0x2, 0x3, 0x4, 0x5, 0x6, 0x7, 0xE] : List Nibble) ↔
      d ∈ ([0x8, 0x9, 0xA, 0xB, 0xC, 0xD, 0xF] : List Nibble) := by
  revert d
  decide

/-- In family 0 the field nnn decides. -/
theorem decode_eq_unrecognized_iff_of_fam0 (h : fieldFam op = 0x0) :
    decode op = .unrecognized op ↔ fieldNNN op ≠ 0x0E0 ∧ fieldNNN op ≠ 0x0EE := by
  have hcls : op = 0x00E0 ↔ fieldNNN op = 0x0E0 := eq_iff_fieldNNN_eq h
  have hret : op = 0x00EE ↔ fieldNNN op = 0x0EE := eq_iff_fieldNNN_eq h
  have hd : decode op = decodeFam0 op := if_pos h
  rw [hd, decodeFam0_eq_unrecognized_iff, ne_eq, ne_eq, hcls, hret]

theorem nibble_cases (f : Nibble) :
    f = 0x0 ∨ f = 0x1 ∨ f = 0x2 ∨ f = 0x3 ∨ f = 0x4 ∨ f = 0x5 ∨ f = 0x6 ∨ f = 0x7 ∨ f = 0x8 ∨ f = 0x9 ∨ f = 0xA ∨
      f = 0xB ∨ f = 0xC ∨ f = 0xD ∨ f = 0xE ∨ f = 0xF := by
  revert f
  decide

theorem decode_eq_unrecognized_iff :
    decode op = .unrecognized op ↔
      (fieldFam op = 0x0 ∧ fieldNNN op ≠ 0x0E0 ∧ fieldNNN op ≠ 0x0EE) ∨
      (fieldFam op = 0x5 ∧ fieldN op ≠ 0x0) ∨
      (fieldFam op = 0x8 ∧ fieldN op ∈ [0x8, 0x9, 0xA, 0xB, 0xC, 0xD, 0xF]) ∨
      (fieldFam op = 0x9 ∧ fieldN op ≠ 0x0) ∨
      (fieldFam op = 0xE ∧ fieldNN op ∉ [0x9E, 0xA1]) ∨
      (fieldFam op = 0xF ∧ fieldNN op ∉ [0x07, 0x0A, 0x15, 0x18, 0x1E, 0x29, 0x33, 0x55, 0x65]) := by
  rw [← not_mem_fam8_digits, ← decodeFam8_eq_unrecognized_iff, ← decodeFamE_eq_unrecognized_iff,
    ← decodeFamF_eq_unrecognized_iff]
  obtain h | h | h | h | h | h | h | h | h | h | h | h | h | h | h | h := nibble_cases (fieldFam op)
  case inl => simpa [h] using decode_eq_unrecognized_iff_of_fam0 h
  all_goals simp [decode, h]

end

/-- Settles O4: the decoder's branch for each family leaves unrecognized the words the list gives for it. -/
theorem unrecognizedWordsByFamily : Obligations.UnrecognizedWordsByFamily :=
  fun op => ⟨decode_of op, decode_eq_unrecognized_iff⟩

/-- Settles O5: the decoder is a closed computation on each of the nine words. -/
theorem specProgramWordsDecode : Obligations.SpecProgramWordsDecode := by
  unfold Obligations.SpecProgramWordsDecode
  decide

end Sys2Proof
end

section
/-! SUPPORT. The invariant: what keeps it, operation by operation and phase by phase, and that a run from creation never
leaves it (R108). -/

namespace Sys2Proof.Machine

section
variable {s t : State}

/-! ## The invariant through the updates of State -/

theorem State.Inv.setPc (h : s.Inv) {w : Word} (hw : w.toNat ≤ 0x10FE) : (s.setPc w).Inv := by
  obtain ⟨hm, -, hst⟩ := h
  exact ⟨hm, hw, hst⟩

theorem State.Inv.withMem (h : s.Inv) {m : Memory} (hm : m.wf = true) : State.Inv { s with mem := m } := by
  obtain ⟨-, hpc, hst⟩ := h
  exact ⟨hm, hpc, hst⟩

theorem State.Inv.withRegs (h : s.Inv) (v : Vector Byte 16) : State.Inv { s with v := v } := h

/-- PC does not wrap where it advances inside the range of R108. -/
theorem toNat_add_two {w : Word} (h : w.toNat ≤ 4096) : (w + 2).toNat = w.toNat + 2 := by
  bv_omega

theorem State.Inv.skipIf (h : s.Inv) (hpc : s.pc.toNat ≤ 4096) (c : Bool) : (s.skipIf c).Inv := by
  cases c with
  | false => exact h
  | true =>
    refine h.setPc ?_
    rw [toNat_add_two hpc]
    omega

theorem State.Inv.rewindPc (h : s.Inv) (hpc : 2 ≤ s.pc.toNat) : s.rewindPc.Inv := by
  obtain ⟨-, hhi, -⟩ := id h
  exact h.setPc (by bv_omega)

theorem State.Inv.push (h : s.Inv) {w : Word} (hw : w.toNat ≤ 4096) (hp : s.push w = some t) : t.Inv := by
  obtain ⟨hm, hpc, hst⟩ := h
  obtain ⟨hs, rfl⟩ := State.push_eq_some hp
  refine ⟨hm, hpc, fun k => ?_⟩
  rw [Vector.get_eq_getElem, Vector.getElem_set]
  split
  · exact hw
  · exact hst k

theorem State.Inv.pop (h : s.Inv) {w : Word} (hp : s.pop = some (w, t)) : t.Inv ∧ w.toNat ≤ 4096 := by
  obtain ⟨n, hn, -, rfl, rfl⟩ := State.pop_eq_some hp
  obtain ⟨-, -, hst⟩ := id h
  exact ⟨h, hst ⟨n, hn⟩⟩

theorem toNat_addrOperand_lt (nnn : Addr) : (addrOperand nnn).toNat < 4096 :=
  (toNat_addrOperand nnn).trans_lt nnn.isLt

/-- The execute phase starts with PC advanced, so that it is not below 2 (the rewind of `Fx0A`) and not above 4096. -/
theorem exec_inv (i : Instr) (h : s.Inv) (hlo : 2 ≤ s.pc.toNat) (hhi : s.pc.toNat ≤ 4096) :
    ∃ t, exec i s = .next t ∧ t.Inv := by
  have hwf : s.mem.wf = true := h.1
  cases i with
  | ret =>
    obtain ⟨w, u, hp, he⟩ | ⟨-, he⟩ := execRet_cases s
    · obtain ⟨hu, hw⟩ := h.pop hp
      exact ⟨_, he, hu.setPc (hw.trans (by decide))⟩
    · exact ⟨_, he, h⟩
  | call nnn =>
    obtain ⟨u, hp, he⟩ | ⟨-, he⟩ := execCall_cases s nnn
    · exact ⟨_, he, (h.push hhi hp).setPc ((toNat_addrOperand_lt nnn).le.trans (by decide))⟩
    · exact ⟨_, he, h⟩
  | jp nnn => exact ⟨_, rfl, h.setPc ((toNat_addrOperand_lt nnn).le.trans (by decide))⟩
  | jpV0 nnn =>
    refine ⟨_, rfl, h.setPc ?_⟩
    have hn := nnn.isLt
    have hv := (s.reg 0).isLt
    rw [toNat_addrOperand_add_wideReg]
    omega
  | skp x =>
    obtain ⟨-, he⟩ | ⟨-, he⟩ := execSkp_cases s x
    · exact ⟨_, he, h.skipIf hhi _⟩
    · exact ⟨_, he, h⟩
  | sknp x =>
    obtain ⟨-, he⟩ | ⟨-, he⟩ := execSknp_cases s x
    · exact ⟨_, he, h.skipIf hhi _⟩
    · exact ⟨_, he, h⟩
  | waitKey x =>
    obtain ⟨_, -, he⟩ | ⟨-, he⟩ := execWaitKey_cases s x
    · exact ⟨_, he, h⟩
    · exact ⟨_, he, h.rewindPc hlo⟩
  | bcd x =>
    obtain ⟨_, hm, he⟩ | ⟨-, he⟩ := execBcd_cases s x
    · exact ⟨_, he, h.withMem (Memory.wf_of_store hwf hm)⟩
    · exact ⟨_, he, h⟩
  | storeRegs x =>
    obtain ⟨_, hm, he⟩ | ⟨-, he⟩ := execStoreRegs_cases s x
    · exact ⟨_, he, h.withMem (Memory.wf_of_store hwf hm)⟩
    · exact ⟨_, he, h⟩
  | drw x y n => obtain ⟨_, _, -, -, he⟩ | ⟨-, he⟩ := execDrw_cases s x y n <;> exact ⟨_, he, h⟩
  | loadRegs x =>
    obtain ⟨_, -, he⟩ | ⟨-, he⟩ := execLoadRegs_cases s x
    · exact ⟨_, he, h.withRegs _⟩
    · exact ⟨_, he, h⟩
  | seImm | sneImm | seReg | sneReg => exact ⟨_, rfl, h.skipIf hhi _⟩
  | cls | ldImm | addImm | ldReg | orReg | andReg | xorReg | addReg | subReg | shr | subn | shl | ldI | rnd | ldDT
  | setDT | setST | addI | ldFont => exact ⟨_, rfl, h⟩

/-! ## The step -/

theorem State.Inv.advancePc (h : s.Inv) (hpc : s.pc.toNat + 2 ≤ 4096) :
    s.advancePc.Inv ∧ 2 ≤ s.advancePc.pc.toNat ∧ s.advancePc.pc.toNat ≤ 4096 := by
  have hadv : s.advancePc.pc.toNat = s.pc.toNat + 2 := toNat_add_two (by omega)
  have hle : s.advancePc.pc.toNat ≤ 4096 := hadv.trans_le hpc
  exact ⟨h.setPc (hle.trans (by decide)), by omega, hle⟩

/-- However a step that began in `s` ends, it keeps the invariant if the execute phase did. -/
theorem commit_inv {u : State} (hs : s.Inv) (hu : u.Inv) : ∃ t, commit s (.next u) = .next t ∧ t.Inv := by
  cases hf : u.fault with
  | none => exact ⟨u.timerTick, commit_next_of_none hf, hu⟩
  | some c => exact ⟨s.raise c, commit_next_of_some hf, hs⟩

theorem step_inv (h : s.Inv) : ∃ t, step s = .next t ∧ t.Inv := by
  obtain ⟨c, hp, -⟩ | ⟨hp, -⟩ | ⟨hp, -⟩ | ⟨hp, -⟩ | ⟨-, -, hpc, ⟨op, hp⟩ | ⟨i, hp⟩⟩ := phase_cases s
  · exact ⟨s, step_of_latched hp, h⟩
  · exact ⟨s, step_of_idle hp, h⟩
  · exact ⟨_, step_of_halted hp, h⟩
  · exact ⟨_, step_of_fetchFault hp, h⟩
  · obtain ⟨hadv, -⟩ := h.advancePc hpc
    exact ⟨_, step_of_unrecognized hp, hadv⟩
  · obtain ⟨hadv, hlo, hhi⟩ := h.advancePc hpc
    obtain ⟨u, he, hu⟩ := exec_inv i hadv hlo hhi
    rw [step_of_aboutTo hp, he]
    exact commit_inv h hu

theorem inv_of_step (h : s.Inv) (hs : step s = .next t) : t.Inv := by
  obtain ⟨u, hu, hi⟩ := step_inv h
  obtain rfl : t = u := Host.Outcome.next.inj (hs.symm.trans hu)
  exact hi

end

/-- Settles O17: the execute phase keeps the invariant from the advanced PC on, and every other phase moves at most PC,
inside memory. -/
theorem stepKeepsInvariant : Obligations.StepKeepsInvariant := fun _ _ => inv_of_step

/-! ## Creation -/

/-- The font table lies inside memory. -/
theorem length_font_le (font : Vector Byte 80) : 0 + font.toList.length ≤ Config.memSize := by
  rw [Vector.length_toList]
  decide

theorem State.reset_inv : State.reset.Inv := by decide

theorem State.create_inv (font : Vector Byte 80) : (State.create font).Inv :=
  State.reset_inv.withMem (Memory.wf_setBytes _ Memory.wf_nil (length_font_le font))

/-- Settles O18: the font table is one run of bytes written to empty memory, inside the 4096 addresses. -/
theorem creationHasInvariant : Obligations.CreationHasInvariant := ⟨State.reset_inv, State.create_inv⟩

/-! ## Runs -/

theorem entry_le : Config.entry.toNat ≤ 0x10FE := by decide

theorem State.Inv.loaded {s : State} (h : s.Inv) {rom : List Byte} (hr : rom.length ≤ 3584) : (s.loaded rom).Inv := by
  obtain ⟨hm, -, hst⟩ := h
  exact ⟨Memory.wf_setBytes rom hm (entry_add_le_memSize hr), entry_le, hst⟩

theorem State.Inv.setKey {s : State} (h : s.Inv) (index : Nat) (pressed : Bool) : (s.setKey index pressed).Inv := by
  rw [State.setKey_eq_withKey]
  exact h

theorem State.Inv.togglePause {s : State} (h : s.Inv) : s.togglePause.Inv := by
  unfold State.togglePause
  cases s.run <;> exact h

/-- What a host's load can do (R191, R192). -/
theorem Session.perform_load_cases (σ : Session) (rom : List Byte) :
    (3584 < rom.length ∧ σ.perform (.load rom) = .next σ) ∨
    (rom.length ≤ 3584 ∧ σ.loadOpen = true ∧
      σ.perform (.load rom) = .next { machine := σ.machine.loaded rom, loadOpen := false }) ∨
    (rom.length ≤ 3584 ∧ σ.loadOpen = false ∧ σ.perform (.load rom) = .refused .reload) := by
  obtain hlt | hle := Nat.lt_or_ge 3584 rom.length
  · exact .inl ⟨hlt, by simp only [Session.perform, State.load_of_lt hlt]⟩
  · cases ho : σ.loadOpen with
    | true => exact .inr (.inl ⟨hle, rfl, by simp [Session.perform, State.load_of_le hle, ho]⟩)
    | false => exact .inr (.inr ⟨hle, rfl, by simp [Session.perform, State.load_of_le hle, ho]⟩)

theorem Session.perform_step {σ : Session} {s : State} (h : Machine.step σ.machine = .next s) :
    σ.perform .step = .next { machine := s, loadOpen := false } := by
  simp only [Session.perform, h]

theorem Session.inv_of_perform {σ σ' : Session} {e : HostEvent} (h : σ.machine.Inv) (he : σ.perform e = .next σ') :
    σ'.machine.Inv := by
  cases e with
  | load rom =>
    obtain ⟨-, hp⟩ | ⟨hr, -, hp⟩ | ⟨-, -, hp⟩ := σ.perform_load_cases rom
    · obtain rfl : σ = σ' := Host.Outcome.next.inj (hp.symm.trans he)
      exact h
    · obtain rfl := Host.Outcome.next.inj (hp.symm.trans he)
      exact h.loaded hr
    · exact nomatch hp.symm.trans he
  | step =>
    obtain ⟨t, ht, hi⟩ := step_inv h
    obtain rfl := Host.Outcome.next.inj ((Session.perform_step ht).symm.trans he)
    exact hi
  | setKey index pressed =>
    obtain rfl := Host.Outcome.next.inj he
    exact h.setKey index pressed
  | togglePause =>
    obtain rfl := Host.Outcome.next.inj he
    exact h.togglePause
  | quit =>
    obtain rfl := Host.Outcome.next.inj he
    exact h

/-- A run that ends has performed its first move, and then the others. -/
theorem Session.run_cons {σ σ' : Session} {e : HostEvent} {es : List HostEvent}
    (h : Session.run (e :: es) σ = .next σ') : ∃ σ₁, σ.perform e = .next σ₁ ∧ Session.run es σ₁ = .next σ' := by
  unfold Session.run at h
  split at h
  · next σ₁ h₁ => exact ⟨σ₁, h₁, h⟩
  · exact nomatch h
  · exact nomatch h

theorem Session.inv_of_run : ∀ {es : List HostEvent} {σ σ' : Session}, σ.machine.Inv →
    Session.run es σ = .next σ' → σ'.machine.Inv
  | [], _, _, h, hr => Host.Outcome.next.inj hr ▸ h
  | _ :: _, _, _, h, hr => by
    obtain ⟨_, h₁, h₂⟩ := Session.run_cons hr
    exact Session.inv_of_run (Session.inv_of_perform h h₁) h₂

/-- Settles O19: creation has the invariant, and every move of the host keeps it. -/
theorem runsKeepInvariant : Obligations.RunsKeepInvariant := fun font _ _ h =>
  Session.inv_of_run (State.create_inv font) h

end Sys2Proof.Machine
end

section
/-! SUPPORT. The canonical form of memory is one, the creation state, the rest of the host interface, and when a load is
refused. -/

namespace Sys2Proof.Machine

/-! ## Two canonical memories that read the same -/

theorem Memory.byteAt_cons_self (k : Nat) (b : Byte) (m : Memory) : Memory.byteAt ((k, b) :: m) k = b := if_pos rfl

theorem Memory.byteAt_cons_ne {k a : Nat} (h : a ≠ k) (b : Byte) (m : Memory) :
    Memory.byteAt ((k, b) :: m) a = m.byteAt a := if_neg h

/-- Where a canonical memory lists an address, another that reads the same has no first cell above it. -/
theorem Memory.first_le_of_same_reads {lo k : Nat} {b : Byte} {m m' : Memory}
    (hm : Memory.wfFrom lo ((k, b) :: m) = true) (hr : ∀ a < 4096, Memory.byteAt ((k, b) :: m) a = m'.byteAt a)
    {lo' : Nat} (hm' : Memory.wfFrom lo' m' = true) : lo' ≤ k := by
  obtain ⟨-, hk, hb, -⟩ := (Memory.wfFrom_cons ..).1 hm
  by_contra hlt
  have hread : b = resetByte k := by
    rw [← Memory.byteAt_cons_self k b m, hr k hk, Memory.byteAt_below hm' (Nat.lt_of_not_le hlt)]
  exact hb hread

/-- A memory that reads as after reset has no cell. -/
theorem Memory.not_same_reads_nil {lo k : Nat} {b : Byte} {m : Memory}
    (hm : Memory.wfFrom lo ((k, b) :: m) = true) : ¬ ∀ a < 4096, Memory.byteAt ((k, b) :: m) a = Memory.byteAt [] a :=
  fun hr => Nat.not_succ_le_self k (Memory.first_le_of_same_reads hm hr (lo' := k + 1) rfl)

theorem Memory.eq_of_same_reads : ∀ {m m' : Memory} {lo lo' : Nat}, Memory.wfFrom lo m = true →
    Memory.wfFrom lo' m' = true → (∀ a < 4096, m.byteAt a = m'.byteAt a) → m = m'
  | [], [], _, _, _, _, _ => rfl
  | [], (k, b) :: m', _, _, _, hm', hr => absurd (fun a ha => (hr a ha).symm) (Memory.not_same_reads_nil hm')
  | (k, b) :: m, [], _, _, hm, _, hr => absurd hr (Memory.not_same_reads_nil hm)
  | (k, b) :: m, (k', b') :: m', lo, lo', hm, hm', hr => by
    obtain ⟨-, hk, hb, ht⟩ := (Memory.wfFrom_cons ..).1 hm
    obtain ⟨-, hk', hb', ht'⟩ := (Memory.wfFrom_cons ..).1 hm'
    obtain rfl : k = k' := by
      refine Nat.le_antisymm ?_ ?_
      · exact Memory.first_le_of_same_reads hm' (fun a ha => (hr a ha).symm)
          ((Memory.wfFrom_cons ..).2 ⟨le_refl k, hk, hb, ht⟩)
      · exact Memory.first_le_of_same_reads hm hr ((Memory.wfFrom_cons ..).2 ⟨le_refl k', hk', hb', ht'⟩)
    obtain rfl : b = b' := by simpa only [Memory.byteAt_cons_self] using hr k hk
    have htail : ∀ a < 4096, Memory.byteAt m a = Memory.byteAt m' a := by
      intro a ha
      by_cases h : a = k
      · rw [h, Memory.byteAt_below ht (Nat.lt_succ_self k), Memory.byteAt_below ht' (Nat.lt_succ_self k)]
      · simpa only [Memory.byteAt_cons_ne h] using hr a ha
    rw [Memory.eq_of_same_reads ht ht' htail]

/-- Settles O43: the first cells of two such memories have the same address and byte, and so on down the lists. -/
theorem equalReadsMakeEqualMemories : Obligations.EqualReadsMakeEqualMemories :=
  fun _ _ => Memory.eq_of_same_reads

/-! ## Creation (R30, R240) -/

section
variable (font : Vector Byte 80)

theorem State.create_byteAt {a : Nat} (h : a < 80) : (State.create font).mem.byteAt a = font[a] := by
  have hlen : a < font.toList.length := by rwa [Vector.length_toList]
  have hread := Memory.byteAt_setBytes_inside font.toList a Memory.wf_nil (length_font_le font) hlen
  rw [Nat.zero_add] at hread
  exact hread.trans (by simp [List.getD_eq_getElem?_getD, h])

theorem State.create_byteAt_above {a : Nat} (h : 80 ≤ a) : (State.create font).mem.byteAt a = 0 := by
  have hout : a < 0 ∨ 0 + font.toList.length ≤ a := .inr (by rwa [Vector.length_toList, Nat.zero_add])
  exact (Memory.byteAt_setBytes_outside [] font.toList hout).trans (dif_neg (Nat.not_lt_of_le h))

theorem resetByte_of_lt {a : Nat} (h : a < 80) : resetByte a = defaultFont[a] := dif_pos h

theorem resetByte_of_le {a : Nat} (h : 80 ≤ a) : resetByte a = 0 := dif_neg (Nat.not_lt_of_le h)

/-- The default table is what unlisted addresses read as, so that writing it lists nothing. -/
theorem create_defaultFont_mem : (State.create defaultFont).mem = [] := by
  obtain ⟨hwf, -⟩ := State.create_inv defaultFont
  refine Memory.eq_of_same_reads hwf Memory.wf_nil fun a _ => ?_
  obtain h | h := Nat.lt_or_ge a 80
  · exact (State.create_byteAt defaultFont h).trans (resetByte_of_lt h).symm
  · exact (State.create_byteAt_above defaultFont h).trans (resetByte_of_le h).symm

theorem create_defaultFont : State.create defaultFont = State.reset := by
  have h : State.create defaultFont = { State.reset with mem := (State.create defaultFont).mem } := rfl
  rw [h, create_defaultFont_mem]
  rfl

end

/-- Settles O57: creation is the reset state with the font table written to empty memory. -/
theorem creationState : Obligations.CreationState := by
  refine ⟨fun font => ⟨fun _ => State.create_byteAt font, fun _ => State.create_byteAt_above font, ?regs, rfl, rfl,
    ?stack, rfl, rfl, rfl, fun c _ r _ => cell_clear c r, ?keys, rfl, rfl⟩, create_defaultFont⟩
  case regs => exact fun r => Vector.getElem_replicate r.isLt
  case stack => exact fun k => Vector.getElem_replicate k.isLt
  case keys => exact fun k => Vector.getElem_replicate k.isLt

/-! ## Run state (R196, R197) -/

section
variable {s : State}

theorem State.togglePause_of_running (h : s.run = .running) : s.togglePause = { s with run := .paused } := by
  simp only [State.togglePause, h]

theorem State.togglePause_of_paused (h : s.run = .paused) : s.togglePause = { s with run := .running } := by
  simp only [State.togglePause, h]

theorem State.togglePause_of_quit (h : s.run = .quit) : s.togglePause = s := by
  simp only [State.togglePause, h]

theorem State.withRun_self {r : RunState} (h : s.run = r) : { s with run := r } = s := by
  rw [← h]

end

/-- Settles O55: one equation of `togglePause` for each value of RUN. -/
theorem runStateOperations : Obligations.RunStateOperations := by
  intro s
  refine ⟨fun h => ⟨State.togglePause_of_running h, ?_⟩, fun h => ⟨State.togglePause_of_paused h, ?_⟩,
    fun h => ⟨State.togglePause_of_quit h, State.withRun_self h⟩, rfl, State.togglePause_of_quit rfl⟩
  · rw [State.togglePause_of_running h]
    exact (State.togglePause_of_paused rfl).trans (State.withRun_self h)
  · rw [State.togglePause_of_paused h]
    exact (State.togglePause_of_running rfl).trans (State.withRun_self h)

/-! ## The screen query (R199) -/

/-- Settles O58: 64 cells a row, so that the quotient and the remainder of a cell's index are its row and column. -/
theorem screenFlatFormIsRowMajor : Obligations.ScreenFlatFormIsRowMajor := by
  intro s
  refine ⟨by rw [State.screenFlat, List.length_map, List.length_range], fun col row => ?_⟩
  have hlt : row.val * 64 + col.val < 2048 := by omega
  have hcol : (row.val * 64 + col.val) % 64 = col.val := by omega
  have hrow : (row.val * 64 + col.val) / 64 = row.val := by omega
  rw [State.screenFlat, List.getElem?_map, List.getElem?_range hlt, Option.map_some, hcol, hrow]
  rfl

/-! ## The one load of a run (R192) -/

/-- The moves that close the window for a load: a step, and a load that fits. -/
def HostEvent.closes : HostEvent → Prop
  | .step => True
  | .load rom => rom.length ≤ 3584
  | .setKey _ _ | .togglePause | .quit => False

/-- After a move the window is open exactly if it was and the move does not close it. -/
theorem Session.loadOpen_of_perform {σ σ' : Session} {e : HostEvent} (h : σ.perform e = .next σ') :
    σ'.loadOpen = true ↔ σ.loadOpen = true ∧ ¬ e.closes := by
  cases e with
  | load rom =>
    obtain ⟨hr, hp⟩ | ⟨hr, ho, hp⟩ | ⟨-, -, hp⟩ := σ.perform_load_cases rom
    · obtain rfl : σ = σ' := Host.Outcome.next.inj (hp.symm.trans h)
      simp [HostEvent.closes, hr]
    · obtain rfl := Host.Outcome.next.inj (hp.symm.trans h)
      simp [HostEvent.closes, hr]
    · exact nomatch hp.symm.trans h
  | step =>
    obtain ⟨t, ht, -⟩ := step_key σ.machine
    obtain rfl := Host.Outcome.next.inj ((Session.perform_step ht).symm.trans h)
    simp [HostEvent.closes]
  | setKey | togglePause | quit =>
    obtain rfl := Host.Outcome.next.inj h
    simp [HostEvent.closes]

theorem Session.loadOpen_of_run : ∀ {es : List HostEvent} {σ σ' : Session}, Session.run es σ = .next σ' →
    (σ'.loadOpen = true ↔ σ.loadOpen = true ∧ ∀ e ∈ es, ¬ e.closes)
  | [], _, _, h => by
    obtain rfl := Host.Outcome.next.inj h
    simp
  | e :: es, _, _, h => by
    obtain ⟨_, h₁, h₂⟩ := Session.run_cons h
    rw [Session.loadOpen_of_run h₂, Session.loadOpen_of_perform h₁, List.forall_mem_cons, and_assoc]

/-- That no move of a run closes the window, as R192 says it. -/
theorem forall_not_closes_iff (es : List HostEvent) :
    (∀ e ∈ es, ¬ e.closes) ↔ HostEvent.step ∉ es ∧ ∀ r, HostEvent.load r ∈ es → 3584 < r.length := by
  constructor
  · exact fun h => ⟨fun hs => h _ hs trivial, fun r hr => Nat.lt_of_not_le (h _ hr)⟩
  · rintro ⟨hs, hl⟩ e he
    cases e with
    | step => exact absurd he hs
    | load rom => exact Nat.not_le_of_lt (hl rom he)
    | setKey | togglePause | quit => exact id

/-- Settles O56: the window is open after a run exactly if no move of the run closes it. -/
theorem secondLoadIsRefused : Obligations.SecondLoadIsRefused := by
  intro font events σ rom h
  have hopen : σ.loadOpen = true ↔ HostEvent.step ∉ events ∧ ∀ r, HostEvent.load r ∈ events → 3584 < r.length := by
    rw [Session.loadOpen_of_run h, forall_not_closes_iff]
    exact and_iff_right rfl
  obtain ⟨hr, hp⟩ | ⟨hr, ho, hp⟩ | ⟨hr, ho, hp⟩ := σ.perform_load_cases rom
  · have hgt : ¬ rom.length ≤ 3584 := Nat.not_le_of_lt hr
    exact ⟨fun hle => absurd hle hgt, fun hle => absurd hle hgt, fun _ => hp⟩
  · obtain ⟨hs, hl⟩ := hopen.1 ho
    refine ⟨fun _ hc => ?_, fun _ _ => ⟨_, hp, State.load_of_le hr⟩, fun hlt => absurd hr (Nat.not_le_of_lt hlt)⟩
    obtain hstep | ⟨r, hmem, hle⟩ := hc
    · exact absurd hstep hs
    · exact absurd hle (Nat.not_le_of_lt (hl r hmem))
  · refine ⟨fun _ _ => hp, fun _ hn => ?_, fun hlt => absurd hr (Nat.not_le_of_lt hlt)⟩
    exact absurd (hopen.2 hn) (by simp [ho])

end Sys2Proof.Machine
end

section
/-! SUPPORT. The step, phase by phase: which instruction runs, what a stopped, halted or fatal step changes, the causes
of fatal steps, and the timer law (R80 to R92, R211 to R215). -/

namespace Sys2Proof.Machine

section
variable {s t : State}

/-! ## Which phase a state is in -/

theorem phase_of_latched {c : Fault} (h : s.fault = some c) : phase s = .latched c := by
  simp only [phase, h]

theorem phase_of_not_running (hf : s.fault = none) (hr : s.run ≠ .running) : phase s = .idle := by
  simp only [phase, hf]
  exact if_pos hr

theorem phase_of_beyond (hf : s.fault = none) (hr : s.run = .running) (hp : 4096 ≤ s.pc.toNat) : phase s = .halted := by
  simp only [phase, hf, hr, ne_eq, not_true_eq_false, if_false]
  exact if_pos hp

theorem phase_of_last_byte (hf : s.fault = none) (hr : s.run = .running) (hp : s.pc.toNat = 4095) :
    phase s = .fetchFault := by
  have hm : ¬ Config.memSize ≤ 4095 := by decide
  have h2 : ¬ 4095 + 2 ≤ Config.memSize := by decide
  simp only [phase, State.fetch_eq, hf, hr, hp, hm, h2, ne_eq, not_true_eq_false, if_false]

/-- Where the gate passes, what is fetched is what runs (R84, R85). -/
theorem State.AboutTo.of_fetch {op : Word} {i : Instr} (hf : s.fault = none) (hr : s.run = .running)
    (h : s.fetch = some op) (hd : decode op = .instr i) : s.AboutTo i := by
  rw [State.fetch_eq] at h
  split at h
  · next hp =>
    obtain rfl := Option.some.inj h
    exact (phase_eq_execute_iff s i).2 ⟨hf, hr, hp, hd⟩
  · exact nomatch h

theorem State.AboutTo.fetch {i : Instr} (h : s.AboutTo i) : s.fetch = some (encode i) := by
  obtain ⟨-, -, hp, hd⟩ := (phase_eq_execute_iff s i).1 h
  rw [State.fetch_eq, if_pos hp, encode_of_decode hd]

/-! ## What a step returns, phase by phase (R80, R90) -/

theorem stepOutcome_of_latched {c : Fault} (h : phase s = .latched c) : stepOutcome s = .fatal c := by
  simp only [stepOutcome, h]

theorem stepOutcome_of_idle (h : phase s = .idle) : stepOutcome s = .idle := by
  simp only [stepOutcome, h]

theorem stepOutcome_of_halted (h : phase s = .halted) : stepOutcome s = .halted := by
  simp only [stepOutcome, h]

theorem stepOutcome_of_fetchFault (h : phase s = .fetchFault) : stepOutcome s = .fatal .fetchOutOfRange := by
  simp only [stepOutcome, h]

/-- The whole step of an instruction that raises a cause: only the latch (R214). -/
theorem step_of_raise {u : State} {i : Instr} {c : Fault} (h : s.AboutTo i) (he : exec i s.advancePc = .next u)
    (hc : u.fault = some c) : step s = .next (s.raise c) ∧ stepOutcome s = .fatal c := by
  have hr : raised (exec i s.advancePc) = some c := by rw [he, raised, hc]
  exact ⟨by rw [step_of_aboutTo h, he, commit_next_of_some hc], stepOutcome_of_raised h hr⟩

end

/-- Settles O6: under its hypotheses the phase is `execute i`, and `commit` looks at the latch that `exec` left. -/
theorem stepRunsDecodedInstruction : Obligations.StepRunsDecodedInstruction := by
  intro s i hf hr hp hd
  have h : s.AboutTo i := (phase_eq_execute_iff s i).2 ⟨hf, hr, hp, hd⟩
  refine ⟨step_of_aboutTo h, fun t he => ⟨fun hn => ?_, fun c hc => step_of_raise h he hc⟩⟩
  have hkeep : t.fault = s.fault := hn.trans hf.symm
  exact ⟨step_of_exec h he hkeep, stepOutcome_of_exec h he hkeep⟩

/-! ## A placed word -/

theorem decode_of_decodeTableWord {nbits w : Nat} {i : Instr} (h : decodeTableWord nbits w = some i) :
    decode (tableOpcode nbits w) = .instr i := by
  simp only [decodeTableWord, decodeBytes, opcodeOf_bytes] at h
  cases hd : decode (tableOpcode nbits w) with
  | instr j =>
    simp only [hd, Option.some.injEq] at h
    rw [h]
  | unrecognized op => simp only [hd, reduceCtorEq] at h

/-- Settles O7: the placed word is what the next step fetches, and the placing opens the gate. -/
theorem placedWordRunsNext : Obligations.PlacedWordRunsNext := fun _ _ _ hm h =>
  .of_fetch rfl rfl (State.fetch_placeOpcode hm _) (decode_of_decodeTableWord h)

/-! ## Any number of steps -/

theorem stepsFrom_succ {s t : State} (k : Nat) (h : step s = .next t) : stepsFrom (k + 1) s = stepsFrom k t := by
  simp only [stepsFrom, h]

theorem TimersFallenBy.succ {s t u : State} {k : Nat} (h : TimersFallenBy 1 s t) (h' : TimersFallenBy k t u) :
    TimersFallenBy (k + 1) s u := by
  obtain ⟨hdt, hst⟩ := h
  obtain ⟨hdt', hst'⟩ := h'
  exact ⟨by omega, by omega⟩

theorem stepsFrom_of_halted : ∀ (k : Nat) {s : State}, phase s = .halted →
    ∃ t, stepsFrom k s = .next t ∧ TimersFallenBy k s t ∧ SameOutsideTimers s t
  | 0, s, _ => ⟨s, rfl, ⟨rfl, rfl⟩, fun _ => rfl, rfl, rfl, rfl, ⟨rfl, rfl⟩, ⟨rfl, rfl, rfl, rfl⟩, rfl⟩
  | k + 1, s, h => by
    have hs : step s = .next s.timerTick := step_of_halted h
    obtain ⟨t, ht, hfall, hsame⟩ := stepsFrom_of_halted k ((phase_timerTick s).trans h)
    exact ⟨t, (stepsFrom_succ k hs).trans ht, TimersFallenBy.succ s.timerTick_timersFallenBy hfall, hsame⟩

/-- Settles O9: the tick leaves the phase `halted`. -/
theorem haltedMachineOnlyTicks : Obligations.HaltedMachineOnlyTicks := by
  intro k s hf hr hp
  have h : phase s = .halted := phase_of_beyond hf hr hp
  exact ⟨stepOutcome_of_halted h, stepsFrom_of_halted k h⟩

theorem stepsFrom_of_fixed {s : State} (h : step s = .next s) : ∀ k, stepsFrom k s = .next s
  | 0 => rfl
  | k + 1 => (stepsFrom_succ k h).trans (stepsFrom_of_fixed h k)

/-- Settles O10: the gate answers the same state, so that every later step stops at the same gate. -/
theorem stoppedMachineNeverMoves : Obligations.StoppedMachineNeverMoves := by
  intro k s h
  cases hf : s.fault with
  | some c =>
    have hp := phase_of_latched hf
    refine ⟨stepsFrom_of_fixed (step_of_latched hp) k, ?_, nofun⟩
    rintro d ⟨⟩
    exact stepOutcome_of_latched hp
  | none =>
    have hr : s.run ≠ .running := h.resolve_left (absurd hf)
    have hp := phase_of_not_running hf hr
    exact ⟨stepsFrom_of_fixed (step_of_idle hp) k, nofun, fun _ => stepOutcome_of_idle hp⟩

/-! ## Steps that latch a cause (R211 to R215) -/

/-- Settles O13: the phase at 4095 is `fetchFault`. -/
theorem fetchAtLastByteIsFatal : Obligations.FetchAtLastByteIsFatal := by
  intro s hf hr hp
  have h : phase s = .fetchFault := phase_of_last_byte hf hr hp
  exact ⟨step_of_fetchFault h, stepOutcome_of_fetchFault h⟩

/-- Settles O14: what an execute phase and a step answer is a state, whose keypad is the one before. -/
theorem everyStepAnswersNext : Obligations.EveryStepAnswersNext := by
  refine ⟨fun i s => ?_, fun s => ?_⟩
  · obtain ⟨t, ht, -⟩ := exec_key i s
    exact ⟨t, ht⟩
  · obtain ⟨t, ht, -⟩ := step_key s
    exact ⟨t, ht⟩

/-- Settles O11: only a fetch fault and a raising execute phase latch a cause, and `commit` then keeps the latch
alone. -/
theorem fatalStepCommitsNothing : Obligations.FatalStepCommitsNothing := by
  intro s t c hf hs hc
  cases hp : phase s with
  | latched d =>
    obtain rfl := Host.Outcome.next.inj ((step_of_latched hp).symm.trans hs)
    exact nomatch hf.symm.trans hc
  | idle =>
    obtain rfl := Host.Outcome.next.inj ((step_of_idle hp).symm.trans hs)
    exact nomatch hf.symm.trans hc
  | halted =>
    obtain rfl := Host.Outcome.next.inj ((step_of_halted hp).symm.trans hs)
    exact nomatch hf.symm.trans hc
  | unrecognized addr op =>
    obtain rfl := Host.Outcome.next.inj ((step_of_unrecognized hp).symm.trans hs)
    exact nomatch hf.symm.trans hc
  | fetchFault =>
    obtain rfl := Host.Outcome.next.inj ((step_of_fetchFault hp).symm.trans hs)
    obtain rfl := Option.some.inj hc
    exact ⟨rfl, stepOutcome_of_fetchFault hp⟩
  | execute i =>
    obtain ⟨u, he, -⟩ := exec_key i s.advancePc
    cases hu : u.fault with
    | none =>
      obtain rfl := Host.Outcome.next.inj ((step_of_exec hp he (hu.trans hf.symm)).symm.trans hs)
      exact nomatch hu.symm.trans hc
    | some d =>
      obtain ⟨hstep, hout⟩ := step_of_raise hp he hu
      obtain rfl := Host.Outcome.next.inj (hstep.symm.trans hs)
      obtain rfl := Option.some.inj hc
      exact ⟨rfl, hout⟩

/-- What R211's table names for each cause that an instruction raises: the instruction and its condition. -/
def RaiseCondition (s : State) (i : Instr) : Fault → Prop
  | .stackOverflow => (∃ nnn, i = .call nnn) ∧ s.sp = 16
  | .stackUnderflow => i = .ret ∧ s.sp = 0
  | .fetchOutOfRange => False
  | .memOutOfRange =>
    (∃ x y n, i = .drw x y n ∧ 0 < n ∧ 4095 < s.i.toNat + n - 1) ∨ (∃ x, i = .bcd x ∧ 4095 < s.i.toNat + 2) ∨
      ∃ x, (i = .storeRegs x ∨ i = .loadRegs x) ∧ 4095 < s.i.toNat + x.val
  | .keyIndexOutOfRange => ∃ x, (i = .skp x ∨ i = .sknp x) ∧ 15 < (s.reg x).toNat

/-- An execute phase leaves the latch, or is a raise under the condition of its cause. -/
theorem exec_fault (i : Instr) (s : State) :
    ∃ t, exec i s = .next t ∧ (t.fault = s.fault ∨ ∃ c, t = s.raise c ∧ RaiseCondition s i c) := by
  cases i with
  | ret =>
    obtain ⟨w, u, hp, he⟩ | ⟨hp, he⟩ := execRet_cases s
    · obtain ⟨n, hn, -, -, rfl⟩ := State.pop_eq_some hp
      exact ⟨_, he, .inl rfl⟩
    · exact ⟨_, he, .inr ⟨_, rfl, rfl, (State.pop_eq_none_iff s).1 hp⟩⟩
  | call nnn =>
    obtain ⟨u, hp, he⟩ | ⟨hp, he⟩ := execCall_cases s nnn
    · obtain ⟨hs, rfl⟩ := State.push_eq_some hp
      exact ⟨_, he, .inl rfl⟩
    · exact ⟨_, he, .inr ⟨_, rfl, ⟨nnn, rfl⟩, (State.push_eq_none_iff s s.pc).1 hp⟩⟩
  | drw x y n =>
    obtain ⟨_, _, -, -, he⟩ | ⟨hl, he⟩ := execDrw_cases s x y n
    · exact ⟨_, he, .inl rfl⟩
    · obtain ⟨hn, hlt⟩ := (Memory.load_eq_none_iff ..).1 hl
      rw [State.base, Config.memSize] at hlt
      exact ⟨_, he, .inr ⟨_, rfl, .inl ⟨x, y, n, rfl, by omega, by omega⟩⟩⟩
  | skp x =>
    obtain ⟨-, he⟩ | ⟨hgt, he⟩ := execSkp_cases s x
    · exact ⟨_, he, .inl (State.skipIf_fault ..)⟩
    · exact ⟨_, he, .inr ⟨_, rfl, x, .inl rfl, hgt⟩⟩
  | sknp x =>
    obtain ⟨-, he⟩ | ⟨hgt, he⟩ := execSknp_cases s x
    · exact ⟨_, he, .inl (State.skipIf_fault ..)⟩
    · exact ⟨_, he, .inr ⟨_, rfl, x, .inr rfl, hgt⟩⟩
  | bcd x =>
    obtain ⟨_, -, he⟩ | ⟨hs, he⟩ := execBcd_cases s x
    · exact ⟨_, he, .inl rfl⟩
    · obtain ⟨-, hlt⟩ := (Memory.store_eq_none_iff ..).1 hs
      exact ⟨_, he, .inr ⟨_, rfl, .inr (.inl ⟨x, rfl, Nat.lt_of_succ_lt_succ hlt⟩)⟩⟩
  | storeRegs x =>
    obtain ⟨_, -, he⟩ | ⟨hs, he⟩ := execStoreRegs_cases s x
    · exact ⟨_, he, .inl rfl⟩
    · obtain ⟨-, hlt⟩ := (Memory.store_eq_none_iff ..).1 hs
      rw [State.length_regBlock] at hlt
      exact ⟨_, he, .inr ⟨_, rfl, .inr (.inr ⟨x, .inl rfl, Nat.lt_of_succ_lt_succ hlt⟩)⟩⟩
  | loadRegs x =>
    obtain ⟨_, -, he⟩ | ⟨hl, he⟩ := execLoadRegs_cases s x
    · exact ⟨_, he, .inl (State.setRegBlock_fault ..)⟩
    · obtain ⟨-, hlt⟩ := (Memory.load_eq_none_iff ..).1 hl
      exact ⟨_, he, .inr ⟨_, rfl, .inr (.inr ⟨x, .inr rfl, Nat.lt_of_succ_lt_succ hlt⟩)⟩⟩
  | waitKey x => obtain ⟨_, -, he⟩ | ⟨-, he⟩ := execWaitKey_cases s x <;> exact ⟨_, he, .inl rfl⟩
  | seImm | sneImm | seReg | sneReg => exact ⟨_, rfl, .inl (State.skipIf_fault ..)⟩
  | cls | jp | ldImm | addImm | ldReg | orReg | andReg | xorReg | addReg | subReg | shr | subn | shl | ldI | jpV0 | rnd
  | ldDT | setDT | setST | addI | ldFont => exact ⟨_, rfl, .inl rfl⟩

/-- Where a fatal outcome comes from, in a state with no fault (R211). -/
theorem stepOutcome_fatal_cases {s : State} {c : Fault} (hf : s.fault = none) (h : stepOutcome s = .fatal c) :
    (c = .fetchOutOfRange ∧ s.pc.toNat = 4095) ∨ ∃ i, s.AboutTo i ∧ RaiseCondition s i c := by
  obtain ⟨d, -, hd⟩ | ⟨hp, -⟩ | ⟨hp, -⟩ | ⟨hp, -, -, hpc⟩ | ⟨-, -, -, ⟨op, hp⟩ | ⟨i, hp⟩⟩ := phase_cases s
  · exact nomatch hf.symm.trans hd
  · exact nomatch (stepOutcome_of_idle hp).symm.trans h
  · exact nomatch (stepOutcome_of_halted hp).symm.trans h
  · obtain rfl := StepOutcome.fatal.inj ((stepOutcome_of_fetchFault hp).symm.trans h)
    exact .inl ⟨rfl, hpc⟩
  · exact nomatch (stepOutcome_of_unrecognized hp).symm.trans h
  · obtain ⟨u, he, hu | ⟨d, rfl, hd⟩⟩ := exec_fault i s.advancePc
    · exact nomatch (stepOutcome_of_exec hp he hu).symm.trans h
    · obtain ⟨-, hout⟩ := step_of_raise hp he rfl
      obtain rfl := StepOutcome.fatal.inj (hout.symm.trans h)
      exact .inr ⟨i, hp, hd⟩

/-- The value R211 records for cause 5 is the register that the opcode at PC names. -/
theorem fatalInfo_of_key_instr {s : State} {x : Reg} (h : s.AboutTo (.skp x) ∨ s.AboutTo (.sknp x)) :
    (s.raise .keyIndexOutOfRange).fatalInfo = some (s.reg x).toNat := by
  obtain ⟨nn, hfetch⟩ : ∃ nn, s.fetch = some (asmXNN 0xE x nn) := by
    obtain h | h := h
    · exact ⟨_, h.fetch⟩
    · exact ⟨_, h.fetch⟩
  have hraise : (s.raise .keyIndexOutOfRange).fetch = some (asmXNN 0xE x nn) := hfetch
  simp only [State.fatalInfo, State.raise_fault, hraise, fieldX_asmXNN, regOf_regBits, State.reg_raise]

/-- Settles O12: a fatal outcome is a fetch fault or a raise, whose condition `RaiseCondition` is; the recorded value is
read from the state before the step, which the raise leaves. -/
theorem fatalCausesMeetTheirConditions : Obligations.FatalCausesMeetTheirConditions := by
  intro s c hf h
  obtain ⟨rfl, hpc⟩ | ⟨i, hi, hc⟩ := stepOutcome_fatal_cases hf h
  · exact ⟨hpc, congrArg some hpc⟩
  · cases c with
    | stackOverflow =>
      obtain ⟨⟨nnn, rfl⟩, hsp⟩ := hc
      exact ⟨⟨nnn, hi⟩, hsp, rfl⟩
    | stackUnderflow =>
      obtain ⟨rfl, hsp⟩ := hc
      exact ⟨hi, hsp, rfl⟩
    | fetchOutOfRange => exact hc.elim
    | memOutOfRange =>
      refine ⟨?_, rfl⟩
      obtain ⟨x, y, n, rfl, hn, hlt⟩ | ⟨x, rfl, hlt⟩ | ⟨x, rfl | rfl, hlt⟩ := hc
      · exact .inl ⟨x, y, n, hi, hn, hlt⟩
      · exact .inr (.inl ⟨x, hi, hlt⟩)
      · exact .inr (.inr ⟨x, .inl hi, hlt⟩)
      · exact .inr (.inr ⟨x, .inr hi, hlt⟩)
    | keyIndexOutOfRange =>
      obtain ⟨x, hx, hgt⟩ := hc
      have hx' : s.AboutTo (.skp x) ∨ s.AboutTo (.sknp x) := by
        obtain rfl | rfl := hx
        · exact .inl hi
        · exact .inr hi
      exact ⟨x, hx', hgt, fatalInfo_of_key_instr hx'⟩

/-! ## The timer law (R91) -/

theorem not_aboutTo_of_writesTimer {s : State} (h : s.writesTimer = false) :
    (∀ x, ¬ s.AboutTo (.setDT x)) ∧ ∀ x, ¬ s.AboutTo (.setST x) := by
  refine ⟨fun x hx => ?_, fun x hx => ?_⟩ <;>
  · rw [State.writesTimer, hx] at h
    exact nomatch h

theorem step_of_quiet {s : State} (ht : (stepOutcome s).ticks = true) (hw : s.writesTimer = false) :
    ∃ t, step s = .next t ∧ TimersFallenBy 1 s t := by
  obtain ⟨hDT, hST⟩ := not_aboutTo_of_writesTimer hw
  obtain ⟨t, hs, -, hdt, -, hst, -⟩ := tickEndsEveryTickingStep s ht
  exact ⟨t, hs, hdt hDT, hst hST⟩

/-- What the next k + 1 steps being quiet says of the first one and of the others. -/
theorem State.quiet_succ {k : Nat} {s t : State} (h : State.quiet (k + 1) s = true) (hs : step s = .next t) :
    (stepOutcome s).ticks = true ∧ s.writesTimer = false ∧ State.quiet k t = true := by
  simpa only [State.quiet, hs, Bool.and_eq_true, Bool.not_eq_true', and_assoc] using h

/-- Settles O16: by induction on the number of steps, each of which is a tick of timers that nothing else
has written. -/
theorem timerLaw : Obligations.TimerLaw
  | 0, s, _ => ⟨s, rfl, rfl, rfl⟩
  | k + 1, s, h => by
    obtain ⟨u, hu, -⟩ := step_key s
    obtain ⟨ht, hw, hq⟩ := State.quiet_succ h hu
    obtain ⟨t, hs, hfall⟩ := step_of_quiet ht hw
    obtain rfl : u = t := Host.Outcome.next.inj (hu.symm.trans hs)
    obtain ⟨v, hv, hrest⟩ := timerLaw k u hq
    exact ⟨v, (stepsFrom_succ k hu).trans hv, TimersFallenBy.succ hfall hrest⟩

/-- Settles O52: the step leaves ST at Vx less 1. -/
theorem toneIsSeenFromTwoUp : Obligations.ToneIsSeenFromTwoUp := by
  intro x s h
  obtain ⟨-, -, hstep⟩ := timerInstructionsComeBeforeTheTick x s
  obtain ⟨t, hs, hst, -⟩ := hstep h
  refine ⟨t, hs, ?_⟩
  rw [State.tone, decide_eq_true_iff, hst]
  omega

end Sys2Proof.Machine
end

section
/-! SUPPORT. What each instruction that may raise a cause answers, one equation for each case, completed or raised; and
what `Cxnn` answers. -/

namespace Sys2Proof.Machine

section
variable {s : State}

/-! ## Call stack -/

theorem State.push_of_lt (h : s.sp.val < 16) (w : Word) :
    s.push w = some { s with stack := s.stack.set s.sp.val w h, sp := ⟨s.sp.val + 1, Nat.succ_lt_succ h⟩ } :=
  dif_pos h

theorem State.pop_of_succ {n : Nat} (hn : n < 16) (h : s.sp.val = n + 1) :
    s.pop = some (s.stack.get ⟨n, hn⟩, { s with sp := ⟨n, Nat.lt_succ_of_lt hn⟩ }) := by
  obtain hp | ⟨⟨w, t⟩, hp⟩ := Option.eq_none_or_eq_some s.pop
  · rw [(State.pop_eq_none_iff s).1 hp] at h
    exact nomatch h
  · obtain ⟨m, hm, hsp, rfl, rfl⟩ := State.pop_eq_some hp
    obtain rfl : m = n := Nat.succ.inj (hsp.symm.trans h)
    exact hp

theorem exec_call_of_push {t : State} (nnn : Addr) (h : s.push s.pc = some t) :
    exec (.call nnn) s = .next (t.setPc (addrOperand nnn)) := by
  simp only [exec, execCall, h]

theorem exec_call_of_full (nnn : Addr) (h : s.push s.pc = none) :
    exec (.call nnn) s = .next (s.raise .stackOverflow) := by
  simp only [exec, execCall, h]

theorem exec_ret_of_pop {w : Word} {t : State} (h : s.pop = some (w, t)) : exec .ret s = .next (t.setPc w) := by
  simp only [exec, execRet, h]

theorem exec_ret_of_empty (h : s.pop = none) : exec .ret s = .next (s.raise .stackUnderflow) := by
  simp only [exec, execRet, h]

/-! ## Keypad -/

variable {x y : Reg}

theorem exec_skp_of_le (h : (s.reg x).toNat ≤ 15) :
    exec (.skp x) s = .next (s.skipIf (s.keyDown (s.reg x).toNat)) := if_neg (Nat.not_lt_of_le h)

theorem exec_skp_of_gt (h : 15 < (s.reg x).toNat) : exec (.skp x) s = .next (s.raise .keyIndexOutOfRange) := if_pos h

theorem exec_sknp_of_le (h : (s.reg x).toNat ≤ 15) :
    exec (.sknp x) s = .next (s.skipIf (!s.keyDown (s.reg x).toNat)) := if_neg (Nat.not_lt_of_le h)

theorem exec_sknp_of_gt (h : 15 < (s.reg x).toNat) : exec (.sknp x) s = .next (s.raise .keyIndexOutOfRange) := if_pos h

/-! ## Loads and stores -/

theorem exec_bcd_of_store {m : Memory} (h : s.mem.store s.base (decimalDigits (s.reg x)) = some m) :
    exec (.bcd x) s = .next { s with mem := m } := by
  simp only [exec, execBcd, h]

theorem exec_bcd_of_none (h : s.mem.store s.base (decimalDigits (s.reg x)) = none) :
    exec (.bcd x) s = .next (s.raise .memOutOfRange) := by
  simp only [exec, execBcd, h]

theorem exec_storeRegs_of_store {m : Memory} (h : s.mem.store s.base (s.regBlock x) = some m) :
    exec (.storeRegs x) s = .next { s with mem := m } := by
  simp only [exec, execStoreRegs, h]

theorem exec_storeRegs_of_none (h : s.mem.store s.base (s.regBlock x) = none) :
    exec (.storeRegs x) s = .next (s.raise .memOutOfRange) := by
  simp only [exec, execStoreRegs, h]

theorem exec_loadRegs_of_load {bs : List Byte} (h : s.mem.load s.base (x.val + 1) = some bs) :
    exec (.loadRegs x) s = .next (s.setRegBlock bs) := by
  simp only [exec, execLoadRegs, h]

theorem exec_loadRegs_of_none (h : s.mem.load s.base (x.val + 1) = none) :
    exec (.loadRegs x) s = .next (s.raise .memOutOfRange) := by
  simp only [exec, execLoadRegs, h]

/-! ## Draw -/

/-- The drawing of a sprite of these bytes at (Vx, Vy) on the framebuffer of `s` (R161). -/
def State.drawing (s : State) (x y : Reg) (sprite : List Byte) : Drawing :=
  drawRows (spriteCol (s.reg x)) (spriteRow (s.reg y)) sprite { fb := s.fb, collision := false }

/-- `s` after a drawing: its framebuffer, and VF by its collision (R161). -/
def State.drawn (s : State) (d : Drawing) : State := State.setFlag { s with fb := d.fb } d.collision

theorem exec_drw_of_load {n : Nat} {sprite : List Byte} (h : s.mem.load s.base n = some sprite) :
    exec (.drw x y n) s = .next (s.drawn (s.drawing x y sprite)) := by
  simp only [exec, execDrw, h]
  rfl

theorem exec_drw_of_none {n : Nat} (h : s.mem.load s.base n = none) :
    exec (.drw x y n) s = .next (s.raise .memOutOfRange) := by
  simp only [exec, execDrw, h]

end

/-! ## Random byte -/

/-- `Cxnn` draws, and then writes Vx. -/
theorem exec_rnd (x : Reg) (nn : Byte) (s : State) :
    exec (.rnd x nn) s = .next (State.setReg { s with draws := s.draws + 1 } x (Config.rnd s.draws &&& nn)) := rfl

end Sys2Proof.Machine
end

section
/-! SUPPORT. Who writes and who reads what: the writers of each item of the state, the registers an instruction changes,
and the readers of the random byte and of the keypad (10_state.md sections 2, 8 and 9). -/

namespace Sys2Proof.Machine

/-! ## The writers of each item but PC, the registers and the latch -/

/-- From `s` to `t` only the items that R26 lists for the instruction `i` have changed. -/
def OnlyListedChange (i : Instr) (s t : State) : Prop :=
  ((∃ x, i = .bcd x ∨ i = .storeRegs x) ∨ t.mem = s.mem) ∧
  ((i = .cls ∨ ∃ x y n, i = .drw x y n) ∨ t.fb = s.fb) ∧
  ((∃ nnn, i = .ldI nnn) ∨ (∃ x, i = .addI x ∨ i = .ldFont x) ∨ t.i = s.i) ∧
  ((i = .ret ∨ ∃ nnn, i = .call nnn) ∨ SameStack s t) ∧
  ((∃ x, i = .setDT x) ∨ t.dt = s.dt) ∧ ((∃ x, i = .setST x) ∨ t.st = s.st) ∧
  ((∃ x nn, i = .rnd x nn) ∨ t.draws = s.draws) ∧ t.key = s.key ∧ t.run = s.run

/-- An update of registers, PC and the latch changes none of the items. -/
theorem onlyListedChange_of_regs_pc_fault (i : Instr) (s : State) (v : Vector Byte 16) (w : Word) (c : Option Fault) :
    OnlyListedChange i s { s with v := v, pc := w, fault := c } :=
  ⟨.inr rfl, .inr rfl, .inr (.inr rfl), .inr ⟨rfl, rfl⟩, .inr rfl, .inr rfl, .inr rfl, rfl, rfl⟩

theorem State.raise_onlyListedChange (i : Instr) (s : State) (c : Fault) : OnlyListedChange i s (s.raise c) :=
  onlyListedChange_of_regs_pc_fault i s s.v s.pc (some c)

theorem State.setReg_onlyListedChange (i : Instr) (s : State) (x : Reg) (b : Byte) :
    OnlyListedChange i s (s.setReg x b) := onlyListedChange_of_regs_pc_fault i s _ s.pc s.fault

theorem State.setFlagThenReg_onlyListedChange (i : Instr) (s : State) (f : Bool) (x : Reg) (b : Byte) :
    OnlyListedChange i s (s.setFlagThenReg f x b) := onlyListedChange_of_regs_pc_fault i s _ s.pc s.fault

theorem State.setRegBlock_onlyListedChange (i : Instr) (s : State) (bs : List Byte) :
    OnlyListedChange i s (s.setRegBlock bs) := onlyListedChange_of_regs_pc_fault i s _ s.pc s.fault

theorem State.setPc_onlyListedChange (i : Instr) (s : State) (w : Word) : OnlyListedChange i s (s.setPc w) :=
  onlyListedChange_of_regs_pc_fault i s s.v w s.fault

theorem State.skipIf_onlyListedChange (i : Instr) (s : State) (c : Bool) : OnlyListedChange i s (s.skipIf c) :=
  s.skipIf_eq_setPc c ▸ s.setPc_onlyListedChange i _

theorem exec_onlyListedChange (i : Instr) (s : State) : ∃ t, exec i s = .next t ∧ OnlyListedChange i s t := by
  cases i with
  | ret =>
    obtain ⟨w, u, hp, he⟩ | ⟨-, he⟩ := execRet_cases s
    · obtain ⟨n, hn, -, -, rfl⟩ := State.pop_eq_some hp
      exact ⟨_, he, by simp [OnlyListedChange, SameStack]⟩
    · exact ⟨_, he, s.raise_onlyListedChange _ _⟩
  | call nnn =>
    obtain ⟨u, hp, he⟩ | ⟨-, he⟩ := execCall_cases s nnn
    · obtain ⟨hs, rfl⟩ := State.push_eq_some hp
      exact ⟨_, he, by simp [OnlyListedChange, SameStack]⟩
    · exact ⟨_, he, s.raise_onlyListedChange _ _⟩
  | drw x y n =>
    obtain ⟨_, _, -, -, he⟩ | ⟨-, he⟩ := execDrw_cases s x y n
    · exact ⟨_, he, by simp [OnlyListedChange, SameStack]⟩
    · exact ⟨_, he, s.raise_onlyListedChange _ _⟩
  | bcd x =>
    obtain ⟨_, -, he⟩ | ⟨-, he⟩ := execBcd_cases s x
    · exact ⟨_, he, by simp [OnlyListedChange, SameStack]⟩
    · exact ⟨_, he, s.raise_onlyListedChange _ _⟩
  | storeRegs x =>
    obtain ⟨_, -, he⟩ | ⟨-, he⟩ := execStoreRegs_cases s x
    · exact ⟨_, he, by simp [OnlyListedChange, SameStack]⟩
    · exact ⟨_, he, s.raise_onlyListedChange _ _⟩
  | skp x =>
    obtain ⟨-, he⟩ | ⟨-, he⟩ := execSkp_cases s x
    · exact ⟨_, he, s.skipIf_onlyListedChange _ _⟩
    · exact ⟨_, he, s.raise_onlyListedChange _ _⟩
  | sknp x =>
    obtain ⟨-, he⟩ | ⟨-, he⟩ := execSknp_cases s x
    · exact ⟨_, he, s.skipIf_onlyListedChange _ _⟩
    · exact ⟨_, he, s.raise_onlyListedChange _ _⟩
  | loadRegs x =>
    obtain ⟨_, -, he⟩ | ⟨-, he⟩ := execLoadRegs_cases s x
    · exact ⟨_, he, s.setRegBlock_onlyListedChange _ _⟩
    · exact ⟨_, he, s.raise_onlyListedChange _ _⟩
  | waitKey x =>
    obtain ⟨_, -, he⟩ | ⟨-, he⟩ := execWaitKey_cases s x
    · exact ⟨_, he, s.setReg_onlyListedChange _ _ _⟩
    · exact ⟨_, he, s.setPc_onlyListedChange _ _⟩
  | rnd x nn => exact ⟨_, exec_rnd x nn s, by simp [OnlyListedChange, SameStack]⟩
  | cls | ldI | addI | ldFont | setDT | setST => exact ⟨_, rfl, by simp [OnlyListedChange, SameStack]⟩
  | seImm | sneImm | seReg | sneReg => exact ⟨_, rfl, s.skipIf_onlyListedChange _ _⟩
  | jp | jpV0 => exact ⟨_, rfl, s.setPc_onlyListedChange _ _⟩
  | addReg | subReg | shr | subn | shl => exact ⟨_, rfl, s.setFlagThenReg_onlyListedChange _ _ _ _⟩
  | ldImm | addImm | ldReg | orReg | andReg | xorReg | ldDT => exact ⟨_, rfl, s.setReg_onlyListedChange _ _ _⟩

/-- Settles O20: each arm of `exec` updates the fields of its own row of R26 only. -/
theorem onlyListedInstructionsWrite : Obligations.OnlyListedInstructionsWrite := by
  intro i s t h
  obtain ⟨u, he, hu⟩ := exec_onlyListedChange i s
  obtain rfl : u = t := Host.Outcome.next.inj (he.symm.trans h)
  exact hu

/-! ## The registers an instruction changes -/

/-- From `s` to `t` only the registers that `i` names, and VF for a flag writer, have changed; VF as a flag is 0 or
1. -/
def OnlyNamedChange (i : Instr) (s t : State) : Prop :=
  (∀ r : Reg, namesDest i r = false → (r = 15 → writesFlag i = false) → t.reg r = s.reg r) ∧
  (writesFlag i = true → t.fault = none → namesDest i 15 = false → t.reg 15 = 0 ∨ t.reg 15 = 1)

section
variable {i : Instr} {s t : State} {x : Reg}

/-- A raise changes no register, and is no write of the flag. -/
theorem State.raise_onlyNamedChange (c : Fault) : OnlyNamedChange i s (s.raise c) :=
  ⟨fun _ _ _ => rfl, fun _ h => nomatch h⟩

theorem OnlyNamedChange.of_same_regs (hw : writesFlag i = false) (h : ∀ r, t.reg r = s.reg r) :
    OnlyNamedChange i s t := ⟨fun r _ _ => h r, fun hf => absurd hf (by simp [hw])⟩

theorem State.setReg_onlyNamedChange (hw : writesFlag i = false) (hd : ∀ r, namesDest i r = decide (r = x)) (b : Byte) :
    OnlyNamedChange i s (s.setReg x b) := by
  refine ⟨fun r hr _ => ?_, fun hf => absurd hf (by simp [hw])⟩
  rw [hd, decide_eq_false_iff_not] at hr
  rw [State.reg_setReg, if_neg hr]

/-- VF as a flag is 0 or 1 (R12). -/
theorem flag_eq_zero_or_one (f : Bool) : (if f then 1 else 0 : Byte) = 0 ∨ (if f then 1 else 0 : Byte) = 1 := by
  cases f
  · exact .inl rfl
  · exact .inr rfl

theorem State.setFlagThenReg_onlyNamedChange (hw : writesFlag i = true)
    (hd : ∀ r, namesDest i r = decide (r = x)) (f : Bool) (b : Byte) :
    OnlyNamedChange i s (s.setFlagThenReg f x b) := by
  refine ⟨fun r hr h15 => ?_, fun _ _ hn => ?_⟩
  · rw [hd, decide_eq_false_iff_not] at hr
    have hne : r ≠ regVF := fun e => Bool.true_eq_false_eq_False (hw.symm.trans (h15 e))
    rw [State.reg_setFlagThenReg, if_neg hr, if_neg hne]
  · rw [hd, decide_eq_false_iff_not] at hn
    rw [State.reg_setFlagThenReg, if_neg hn]
    exact flag_eq_zero_or_one f

end

theorem exec_onlyNamedChange (i : Instr) (s : State) : ∃ t, exec i s = .next t ∧ OnlyNamedChange i s t := by
  cases i with
  | ret =>
    obtain ⟨w, u, hp, he⟩ | ⟨-, he⟩ := execRet_cases s
    · obtain ⟨n, hn, -, -, rfl⟩ := State.pop_eq_some hp
      exact ⟨_, he, .of_same_regs rfl fun _ => rfl⟩
    · exact ⟨_, he, State.raise_onlyNamedChange _⟩
  | call nnn =>
    obtain ⟨u, hp, he⟩ | ⟨-, he⟩ := execCall_cases s nnn
    · obtain ⟨hs, rfl⟩ := State.push_eq_some hp
      exact ⟨_, he, .of_same_regs rfl fun _ => rfl⟩
    · exact ⟨_, he, State.raise_onlyNamedChange _⟩
  | drw x y n =>
    obtain ⟨_, _, -, -, he⟩ | ⟨-, he⟩ := execDrw_cases s x y n
    · refine ⟨_, he, fun r _ h15 => ?_, fun _ _ _ => ?_⟩
      · have hne : r ≠ regVF := fun e => nomatch h15 e
        rw [State.reg_setFlag, if_neg hne]
        rfl
      · rw [State.reg_setFlag]
        exact flag_eq_zero_or_one _
    · exact ⟨_, he, State.raise_onlyNamedChange _⟩
  | loadRegs x =>
    obtain ⟨bs, hl, he⟩ | ⟨-, he⟩ := execLoadRegs_cases s x
    · refine ⟨_, he, fun r hr _ => ?_, fun hf => nomatch hf⟩
      have hlt : ¬ r.val < x.val + 1 := fun h => of_decide_eq_false hr (Nat.le_of_lt_succ h)
      rw [State.reg_setRegBlock, Memory.getD_of_load hl, if_neg hlt]
    · exact ⟨_, he, State.raise_onlyNamedChange _⟩
  | skp x =>
    obtain ⟨-, he⟩ | ⟨-, he⟩ := execSkp_cases s x
    · exact ⟨_, he, .of_same_regs rfl (State.reg_skipIf s _)⟩
    · exact ⟨_, he, State.raise_onlyNamedChange _⟩
  | sknp x =>
    obtain ⟨-, he⟩ | ⟨-, he⟩ := execSknp_cases s x
    · exact ⟨_, he, .of_same_regs rfl (State.reg_skipIf s _)⟩
    · exact ⟨_, he, State.raise_onlyNamedChange _⟩
  | bcd x =>
    obtain ⟨_, -, he⟩ | ⟨-, he⟩ := execBcd_cases s x <;> exact ⟨_, he, .of_same_regs rfl fun _ => rfl⟩
  | storeRegs x =>
    obtain ⟨_, -, he⟩ | ⟨-, he⟩ := execStoreRegs_cases s x <;> exact ⟨_, he, .of_same_regs rfl fun _ => rfl⟩
  | waitKey x =>
    obtain ⟨_, -, he⟩ | ⟨-, he⟩ := execWaitKey_cases s x
    · exact ⟨_, he, State.setReg_onlyNamedChange rfl (fun _ => rfl) _⟩
    · exact ⟨_, he, .of_same_regs rfl fun _ => rfl⟩
  | rnd x nn =>
    exact ⟨_, exec_rnd x nn s, State.setReg_onlyNamedChange (s := { s with draws := s.draws + 1 }) rfl (fun _ => rfl) _⟩
  | seImm | sneImm | seReg | sneReg => exact ⟨_, rfl, .of_same_regs rfl (State.reg_skipIf s _)⟩
  | addReg | subReg | shr | subn | shl => exact ⟨_, rfl, State.setFlagThenReg_onlyNamedChange rfl (fun _ => rfl) _ _⟩
  | ldImm | addImm | ldReg | orReg | andReg | xorReg | ldDT =>
    exact ⟨_, rfl, State.setReg_onlyNamedChange rfl (fun _ => rfl) _⟩
  | cls | jp | jpV0 | ldI | addI | ldFont | setDT | setST => exact ⟨_, rfl, .of_same_regs rfl fun _ => rfl⟩

/-- Settles O21: each arm of `exec` writes its destination by `setReg`, its flag by `setFlag`, or no register. -/
theorem onlyNamedRegistersChange : Obligations.OnlyNamedRegistersChange := by
  intro i s t h
  obtain ⟨u, he, hu⟩ := exec_onlyNamedChange i s
  obtain rfl : u = t := Host.Outcome.next.inj (he.symm.trans h)
  exact hu

/-! ## The readers of the random byte and of the keypad -/

/-- An update of the next state that an execute phase or a step answers. -/
def mapNext (f : State → State) : Result → Result
  | .next t => .next (f t)
  | .fault c => .fault c
  | .refused q => .refused q

/-- `s` with other free bytes to come (a change `g` of their counter) and other keys pressed (a change `h` of the
keypad). -/
def State.withInputs (g : Nat → Nat) (h : Vector Bool 16 → Vector Bool 16) (s : State) : State :=
  { s with draws := g s.draws, key := h s.key }

section
variable (g : Nat → Nat) (h : Vector Bool 16 → Vector Bool 16) (s : State)

theorem State.skipIf_withInputs (c : Bool) : (s.withInputs g h).skipIf c = (s.skipIf c).withInputs g h := by
  cases c <;> rfl

theorem State.setRegBlock_withInputs (bs : List Byte) :
    (s.withInputs g h).setRegBlock bs = (s.setRegBlock bs).withInputs g h := by
  simp only [State.setRegBlock, State.withInputs]

theorem State.push_withInputs (w : Word) :
    (s.withInputs g h).push w = (s.push w).map (State.withInputs g h) := by
  obtain hp | ⟨t, hp⟩ := Option.eq_none_or_eq_some (s.push w)
  · rw [hp]
    exact (State.push_eq_none_iff _ _).2 ((State.push_eq_none_iff s w).1 hp)
  · obtain ⟨hs, rfl⟩ := State.push_eq_some hp
    rw [hp]
    exact State.push_of_lt (s := s.withInputs g h) hs w

theorem State.pop_withInputs : (s.withInputs g h).pop = s.pop.map (Prod.map id (State.withInputs g h)) := by
  obtain hp | ⟨⟨w, t⟩, hp⟩ := Option.eq_none_or_eq_some s.pop
  · rw [hp]
    exact (State.pop_eq_none_iff _).2 ((State.pop_eq_none_iff s).1 hp)
  · obtain ⟨n, hn, hsp, rfl, rfl⟩ := State.pop_eq_some hp
    rw [hp]
    exact State.pop_of_succ (s := s.withInputs g h) hn hsp

/-- The execute phase of an instruction that reads neither of the changed inputs. -/
theorem exec_withInputs (i : Instr) (hg : ∀ x nn, i = .rnd x nn → g = id)
    (hh : ∀ x, i = .skp x ∨ i = .sknp x ∨ i = .waitKey x → h = id) :
    exec i (s.withInputs g h) = mapNext (State.withInputs g h) (exec i s) := by
  cases i with
  | ret =>
    simp only [exec, execRet, State.pop_withInputs]
    cases s.pop <;> rfl
  | call nnn =>
    have hp : (s.withInputs g h).push (s.withInputs g h).pc = (s.push s.pc).map (State.withInputs g h) :=
      State.push_withInputs ..
    simp only [exec, execCall, hp]
    cases s.push s.pc <;> rfl
  | rnd x nn =>
    obtain rfl := hg x nn rfl
    rfl
  | skp x =>
    obtain rfl := hh x (.inl rfl)
    obtain hgt | hle := Nat.lt_or_ge 15 (s.reg x).toNat
    · rw [exec_skp_of_gt hgt, exec_skp_of_gt (s := s.withInputs g id) hgt]
      rfl
    · rw [exec_skp_of_le hle, exec_skp_of_le (s := s.withInputs g id) hle]
      exact congrArg _ (State.skipIf_withInputs ..)
  | sknp x =>
    obtain rfl := hh x (.inr (.inl rfl))
    obtain hgt | hle := Nat.lt_or_ge 15 (s.reg x).toNat
    · rw [exec_sknp_of_gt hgt, exec_sknp_of_gt (s := s.withInputs g id) hgt]
      rfl
    · rw [exec_sknp_of_le hle, exec_sknp_of_le (s := s.withInputs g id) hle]
      exact congrArg _ (State.skipIf_withInputs ..)
  | waitKey x =>
    obtain rfl := hh x (.inr (.inr rfl))
    cases hk : s.lowestKey with
    | none =>
      rw [exec_waitKey_of_no_key x hk, exec_waitKey_of_no_key (s := s.withInputs g id) x hk]
      rfl
    | some k =>
      rw [exec_waitKey_of_key x hk, exec_waitKey_of_key (s := s.withInputs g id) x hk]
      rfl
  | drw x y n =>
    cases hl : s.mem.load s.base n with
    | none =>
      rw [exec_drw_of_none hl, exec_drw_of_none (s := s.withInputs g h) hl]
      rfl
    | some sprite =>
      rw [exec_drw_of_load hl, exec_drw_of_load (s := s.withInputs g h) hl]
      rfl
  | bcd x =>
    cases hm : s.mem.store s.base (decimalDigits (s.reg x)) with
    | none =>
      rw [exec_bcd_of_none hm, exec_bcd_of_none (s := s.withInputs g h) hm]
      rfl
    | some m =>
      rw [exec_bcd_of_store hm, exec_bcd_of_store (s := s.withInputs g h) hm]
      rfl
  | storeRegs x =>
    cases hm : s.mem.store s.base (s.regBlock x) with
    | none =>
      rw [exec_storeRegs_of_none hm, exec_storeRegs_of_none (s := s.withInputs g h) hm]
      rfl
    | some m =>
      rw [exec_storeRegs_of_store hm, exec_storeRegs_of_store (s := s.withInputs g h) hm]
      rfl
  | loadRegs x =>
    cases hl : s.mem.load s.base (x.val + 1) with
    | none =>
      rw [exec_loadRegs_of_none hl, exec_loadRegs_of_none (s := s.withInputs g h) hl]
      rfl
    | some bs =>
      rw [exec_loadRegs_of_load hl, exec_loadRegs_of_load (s := s.withInputs g h) hl]
      exact congrArg _ (State.setRegBlock_withInputs ..)
  | seImm | sneImm | seReg | sneReg => exact congrArg _ (State.skipIf_withInputs ..)
  | cls | jp | ldImm | addImm | ldReg | orReg | andReg | xorReg | addReg | subReg | shr | subn | shl | ldI | jpV0
  | ldDT | setDT | setST | addI | ldFont => rfl

/-- Neither of the inputs decides what a step will do. -/
theorem phase_withInputs : phase (s.withInputs g h) = phase s := rfl

theorem commit_withInputs (r : Result) :
    commit (s.withInputs g h) (mapNext (State.withInputs g h) r) = mapNext (State.withInputs g h) (commit s r) := by
  cases r with
  | next t =>
    cases hf : t.fault with
    | none =>
      rw [commit_next_of_none hf]
      exact commit_next_of_none (t := t.withInputs g h) hf
    | some c =>
      rw [commit_next_of_some hf]
      exact commit_next_of_some (t := t.withInputs g h) hf
  | fault | refused => rfl

/-- A step whose instruction, if it runs one, reads neither of the changed inputs. -/
theorem step_withInputs (hg : ∀ x nn, s.AboutTo (.rnd x nn) → g = id)
    (hh : ∀ x, s.AboutTo (.skp x) ∨ s.AboutTo (.sknp x) ∨ s.AboutTo (.waitKey x) → h = id) :
    step (s.withInputs g h) = mapNext (State.withInputs g h) (step s) := by
  have hph := phase_withInputs g h s
  cases hp : phase s with
  | latched => rw [step_of_latched hp, step_of_latched (hph.trans hp)]; rfl
  | idle => rw [step_of_idle hp, step_of_idle (hph.trans hp)]; rfl
  | halted => rw [step_of_halted hp, step_of_halted (hph.trans hp)]; rfl
  | fetchFault => rw [step_of_fetchFault hp, step_of_fetchFault (hph.trans hp)]; rfl
  | unrecognized => rw [step_of_unrecognized hp, step_of_unrecognized (hph.trans hp)]; rfl
  | execute i =>
    have hkeys : ∀ x, i = .skp x ∨ i = .sknp x ∨ i = .waitKey x → h = id := by
      rintro x (rfl | rfl | rfl)
      · exact hh x (.inl hp)
      · exact hh x (.inr (.inl hp))
      · exact hh x (.inr (.inr hp))
    have he := exec_withInputs g h s.advancePc i (fun x nn e => hg x nn (e ▸ hp)) hkeys
    rw [step_of_aboutTo hp, step_of_aboutTo (hph.trans hp), ← commit_withInputs, ← he]
    rfl

end

/-- Settles O22: only `Cxnn` draws, so that another counter goes through any other step as it is. -/
theorem onlyRndReadsTheRandomByte : Obligations.OnlyRndReadsTheRandomByte := by
  intro s t n hn hs
  have h := step_withInputs (fun _ => n) id s (fun x nn e => absurd e (hn x nn)) (fun _ _ => rfl)
  rw [hs] at h
  exact h

/-- Settles O23: no other instruction looks at a key, so that another keypad goes through any other step as it is. -/
theorem onlyKeyInstructionsReadTheKeypad : Obligations.OnlyKeyInstructionsReadTheKeypad := by
  intro s t keys hn hs
  have h := step_withInputs id (fun _ => keys) s (fun _ _ _ => rfl) fun x e => by
    obtain ⟨hskp, hsknp, hwait⟩ := hn x
    obtain e | e | e := e
    · exact absurd e hskp
    · exact absurd e hsknp
    · exact absurd e hwait
  rw [hs] at h
  exact h

end Sys2Proof.Machine
end

section
/-! SUPPORT. Call and return, the arithmetic that writes VF, the random byte, the key skips, and the timer instructions
(R100, R102, R127 to R132, R170 to R174). -/

namespace Sys2Proof.Machine

/-! ## Call and return -/

section
variable {s : State}

/-- `s` with `w` on top of the stack (R15). -/
def State.pushed (s : State) (h : s.sp.val < 16) (w : Word) : State :=
  { s with stack := s.stack.set s.sp.val w h, sp := ⟨s.sp.val + 1, Nat.succ_lt_succ h⟩ }

/-- `s` after a call of `nnn` (R102). -/
def State.called (s : State) (h : s.sp.val < 16) (nnn : Addr) : State :=
  (s.pushed h s.pc).setPc (addrOperand nnn)

theorem exec_call_of_lt (h : s.sp.val < 16) (nnn : Addr) : exec (.call nnn) s = .next (s.called h nnn) :=
  exec_call_of_push nnn (State.push_of_lt h s.pc)

theorem exec_ret_of_succ {n : Nat} (hn : n < 16) (h : s.sp.val = n + 1) :
    exec .ret s = .next (State.setPc { s with sp := ⟨n, Nat.lt_succ_of_lt hn⟩ } (s.stack.get ⟨n, hn⟩)) :=
  exec_ret_of_pop (State.pop_of_succ hn h)

theorem State.pushed_get_self (h : s.sp.val < 16) (w : Word) : (s.pushed h w).stack.get ⟨s.sp.val, h⟩ = w :=
  Vector.getElem_set_self h

theorem State.pushed_get_ne (h : s.sp.val < 16) (w : Word) {k : Fin 16} (hk : k.val ≠ s.sp.val) :
    (s.pushed h w).stack.get k = s.stack.get k := Vector.getElem_set_ne h k.isLt hk.symm

end

/-- Settles O26: below capacity the push writes slot SP; at capacity it gives nothing. -/
theorem callPushesReturnAddress : Obligations.CallPushesReturnAddress := by
  intro nnn s
  refine ⟨fun h => ⟨_, exec_call_of_lt h nnn, toNat_addrOperand nnn, rfl, State.pushed_get_self h s.pc,
    fun k hk => State.pushed_get_ne h s.pc hk, fun _ => rfl, rfl, rfl, ⟨rfl, rfl⟩, ⟨rfl, rfl, rfl, rfl⟩, rfl⟩,
    fun h => ?_⟩
  exact exec_call_of_full nnn ((State.push_eq_none_iff s s.pc).2 h)

/-- Settles O27: with SP above 0 the pop reads slot SP - 1; at 0 it gives nothing. -/
theorem returnPopsIntoPc : Obligations.ReturnPopsIntoPc := by
  intro s
  refine ⟨fun n hn h => ⟨_, exec_ret_of_succ hn h, rfl, rfl, rfl, fun _ => rfl, rfl, rfl, ⟨rfl, rfl⟩,
    ⟨rfl, rfl, rfl, rfl⟩, rfl⟩, fun h => ?_⟩
  exact exec_ret_of_empty ((State.pop_eq_none_iff s).2 h)

/-- `00EE`, byte by byte. -/
theorem decode_ret_bytes : decode (opcodeOf 0x00 0xEE) = .instr .ret := by decide

section
variable {s : State} {nnn : Addr}

/-- A call to an address that holds `00EE` is about to return. -/
theorem State.called_aboutTo_ret (hf : s.fault = none) (hr : s.run = .running) (h : s.sp.val < 16)
    (hn : nnn.toNat + 2 ≤ 4096) (hhi : s.mem.byteAt nnn.toNat = 0x00) (hlo : s.mem.byteAt (nnn.toNat + 1) = 0xEE) :
    (s.called h nnn).AboutTo .ret := by
  have hpc : (s.called h nnn).pc.toNat = nnn.toNat := toNat_addrOperand nnn
  have hmem : (s.called h nnn).mem = s.mem := rfl
  refine (phase_eq_execute_iff _ .ret).2 ⟨hf, hr, ?_, ?_⟩
  · rw [hpc]
    exact hn
  · rw [hpc, hmem, hhi, hlo]
    exact decode_ret_bytes

/-- `s` after a call, a tick, and the return: the slot that was pushed stays written. -/
def State.returned (s : State) (h : s.sp.val < 16) : State :=
  { s with stack := s.stack.set s.sp.val s.pc h, dt := tickDown s.dt, st := tickDown s.st }

/-- A return from a call pops what the call has pushed, whatever PC has been in between. -/
theorem exec_ret_of_called (h : s.sp.val < 16) :
    exec .ret (s.called h nnn).timerTick.advancePc = .next (s.returned h) := by
  have hsp : (s.called h nnn).timerTick.advancePc.sp.val = s.sp.val + 1 := rfl
  have htop : (s.called h nnn).timerTick.advancePc.stack.get ⟨s.sp.val, h⟩ = s.pc := State.pushed_get_self h s.pc
  rw [exec_ret_of_succ h hsp, htop]
  rfl

end

/-- Settles O28: the return reads the slot that the call has written, and each of the two steps ends with a tick. -/
theorem callThenReturnComesBack : Obligations.CallThenReturnComesBack := by
  intro s nnn h hsp hn hhi hlo
  obtain ⟨hf, hr, -, -⟩ := (phase_eq_execute_iff s _).1 h
  have hexec : exec (.call nnn) s.advancePc = .next (s.advancePc.called hsp nnn) :=
    exec_call_of_lt (s := s.advancePc) hsp nnn
  have hcall := step_of_exec h hexec rfl
  have hret : (s.advancePc.called hsp nnn).timerTick.AboutTo .ret :=
    (phase_timerTick _).trans (State.called_aboutTo_ret hf hr hsp hn hhi hlo)
  have hback := step_of_exec hret (exec_ret_of_called (s := s.advancePc) hsp) rfl
  have hsteps := (stepsFrom_succ 1 hcall).trans (stepsFrom_succ 0 hback)
  refine ⟨_, hsteps, rfl, rfl, ?timers, fun _ => rfl, rfl, rfl, ⟨rfl, rfl, rfl, rfl⟩, rfl⟩
  case timers =>
    refine TimersFallenBy.succ (t := (s.advancePc.called hsp nnn).timerTick) s.timerTick_timersFallenBy ?_
    exact ⟨tickDown_toNat _, tickDown_toNat _⟩

/-! ## Arithmetic with a flag (R120) -/

section
variable (s : State) (f : Bool) (x : Reg) (b : Byte)

theorem State.reg_setFlagThenReg_self : (s.setFlagThenReg f x b).reg x = b := by
  rw [State.reg_setFlagThenReg, if_pos rfl]

/-- VF as a number, unless the result goes to VF. -/
theorem State.toNat_reg_setFlagThenReg_VF (h : x ≠ 15) : ((s.setFlagThenReg f x b).reg 15).toNat = f.toNat := by
  rw [State.reg_setFlagThenReg, if_neg h.symm, if_pos (show (15 : Reg) = regVF from rfl)]
  cases f <;> rfl

theorem State.setFlagThenReg_sameRegsBut : SameRegsBut (fun r => r = x ∨ r = 15) s (s.setFlagThenReg f x b) := by
  intro r hr
  obtain ⟨hx, hF⟩ := not_or.1 hr
  rw [State.reg_setFlagThenReg, if_neg hx]
  exact if_neg hF

theorem State.setFlagThenReg_sameOutsideRegs : SameOutsideRegs s (s.setFlagThenReg f x b) :=
  ⟨fun _ => rfl, rfl, rfl, ⟨rfl, rfl⟩, ⟨rfl, rfl⟩, ⟨rfl, rfl, rfl, rfl⟩, rfl⟩

end

/-- A flag that is a comparison, as a number. -/
theorem toNat_decide (p : Prop) [Decidable p] : (decide p).toNat = if p then 1 else 0 := by
  by_cases h : p <;> simp [h]

/-- Settles O31: the flag is the comparison of the exact sum with 255, the result the sum of bytes. -/
theorem addSetsCarryThenSum : Obligations.AddSetsCarryThenSum := by
  intro x y s
  refine ⟨_, rfl, ?sum, fun hx => ?carry, s.setFlagThenReg_sameRegsBut _ _ _, s.setFlagThenReg_sameOutsideRegs _ _ _⟩
  case sum => rw [State.reg_setFlagThenReg_self, BitVec.toNat_add]
  case carry => rw [State.toNat_reg_setFlagThenReg_VF _ _ _ _ hx, carryFlag, toNat_decide]

/-- The difference of two bytes, as the residue of the integer difference. -/
theorem toNat_sub_byte (a b : Byte) : ((a - b).toNat : Int) = ((a.toNat : Int) - b.toNat) % 256 := by
  have ha := a.isLt
  have hb := b.isLt
  rw [BitVec.toNat_sub]
  omega

/-- Settles O32: both are one write of flag and difference, with the operands exchanged. -/
theorem subtractsSetNoBorrowThenDifference : Obligations.SubtractsSetNoBorrowThenDifference := by
  intro x y s
  constructor
  · refine ⟨_, rfl, ?_, fun hx => ?_, s.setFlagThenReg_sameRegsBut _ _ _, s.setFlagThenReg_sameOutsideRegs _ _ _⟩
    · rw [State.reg_setFlagThenReg_self, toNat_sub_byte]
    · rw [State.toNat_reg_setFlagThenReg_VF _ _ _ _ hx, noBorrowFlag, toNat_decide]
  · refine ⟨_, rfl, ?_, fun hx => ?_, s.setFlagThenReg_sameRegsBut _ _ _, s.setFlagThenReg_sameOutsideRegs _ _ _⟩
    · rw [State.reg_setFlagThenReg_self, toNat_sub_byte]
    · rw [State.toNat_reg_setFlagThenReg_VF _ _ _ _ hx, noBorrowFlag, toNat_decide]

theorem toNat_lowBitFlag (a : Byte) : (lowBitFlag a).toNat = a.toNat % 2 := by
  rw [lowBitFlag, BitVec.getLsbD, Nat.toNat_testBit, pow_zero, Nat.div_one]

theorem toNat_highBitFlag (a : Byte) : (highBitFlag a).toNat = a.toNat / 128 := by
  have ha := a.isLt
  rw [highBitFlag, BitVec.getLsbD, Nat.toNat_testBit]
  omega

theorem toNat_shiftRight_one (a : Byte) : (a >>> 1).toNat = a.toNat / 2 := by
  rw [BitVec.toNat_ushiftRight, Nat.shiftRight_succ, Nat.shiftRight_zero]

theorem toNat_shiftLeft_one (a : Byte) : (a <<< 1).toNat = 2 * a.toNat % 256 := by
  rw [BitVec.toNat_shiftLeft, Nat.shiftLeft_succ, Nat.shiftLeft_zero]

/-- Settles O33: neither shift reads Vy, and the bit shifted out is the remainder, or the quotient by 128. -/
theorem shiftsSetBitOutThenResult : Obligations.ShiftsSetBitOutThenResult := by
  intro x s
  constructor
  · refine ⟨_, fun _ => rfl, ?_, fun hx => ?_, s.setFlagThenReg_sameRegsBut _ _ _,
      s.setFlagThenReg_sameOutsideRegs _ _ _⟩
    · rw [State.reg_setFlagThenReg_self, toNat_shiftRight_one]
    · rw [State.toNat_reg_setFlagThenReg_VF _ _ _ _ hx, toNat_lowBitFlag]
  · refine ⟨_, fun _ => rfl, ?_, fun hx => ?_, s.setFlagThenReg_sameRegsBut _ _ _,
      s.setFlagThenReg_sameOutsideRegs _ _ _⟩
    · rw [State.reg_setFlagThenReg_self, toNat_shiftLeft_one]
    · rw [State.toNat_reg_setFlagThenReg_VF _ _ _ _ hx, toNat_highBitFlag]

/-! ## Random byte (R132) -/

/-- Settles O34: one draw and one register write, of a bitwise conjunction. -/
theorem randomByteIsMasked : Obligations.RandomByteIsMasked := by
  intro x nn s
  refine ⟨_, exec_rnd x nn s, fun k => ?masked, fun k hk => ?clear, rfl, ?others, fun _ => rfl, rfl, rfl, ⟨rfl, rfl⟩,
    ⟨rfl, rfl⟩, ⟨rfl, rfl, rfl, rfl⟩⟩
  case masked => rw [State.reg_setReg_self, BitVec.getLsbD_and]
  case clear => rw [State.reg_setReg_self, BitVec.getLsbD_and, hk, Bool.and_false]
  case others => exact State.setReg_sameRegsBut { s with draws := s.draws + 1 } x _

/-! ## Key skips and timer instructions -/

/-- Settles O47: below 16 the key scanned is the key of that index. -/
theorem keySkipsFollowKeyLevel : Obligations.KeySkipsFollowKeyLevel := by
  intro x s h
  have hkey : s.keyDown (s.reg x).toNat = s.key.get ⟨(s.reg x).toNat, h⟩ := s.keyDown_val ⟨_, h⟩
  have hle : (s.reg x).toNat ≤ 15 := Nat.le_of_lt_succ h
  refine ⟨⟨_, exec_skp_of_le hle, s.skipIf_sameOutsidePc _, ?_⟩, ⟨_, exec_sknp_of_le hle, s.skipIf_sameOutsidePc _, ?_⟩⟩
  · rw [State.skipIf_pc, hkey]
  · rw [State.skipIf_pc, hkey]
    cases s.key.get ⟨(s.reg x).toNat, h⟩ <;> rfl

/-- Settles O48: above 15 both raise. -/
theorem keyIndexAboveFifteenIsFatal : Obligations.KeyIndexAboveFifteenIsFatal :=
  fun _ _ h => ⟨exec_skp_of_gt h, exec_sknp_of_gt h⟩

/-- Settles O50: each is one write, of a register or of a timer. -/
theorem timerInstructionsMoveOneByte : Obligations.TimerInstructionsMoveOneByte := by
  intro x s
  refine ⟨?ldDT, ?setDT, ?setST⟩
  case ldDT =>
    exact ⟨_, exec_ldDT x s, s.reg_setReg_self _ _, s.setReg_sameRegsBut _ _, s.setReg_sameOutsideRegs _ _⟩
  case setDT =>
    exact ⟨_, exec_setDT x s, rfl, rfl, fun _ => rfl, rfl, rfl, rfl, ⟨rfl, rfl⟩, ⟨rfl, rfl, rfl, rfl⟩, rfl⟩
  case setST =>
    exact ⟨_, exec_setST x s, rfl, rfl, fun _ => rfl, rfl, rfl, rfl, ⟨rfl, rfl⟩, ⟨rfl, rfl, rfl, rfl⟩, rfl⟩

end Sys2Proof.Machine
end

section
/-! SUPPORT. The address register, loads and stores through it, and drawing (R142 to R146, R161 to R163). -/

namespace Sys2Proof.Machine

/-! ## Loads and stores by their range (R46) -/

section
variable (m : Memory) {a : Nat} {bs : List Byte}

theorem Memory.store_of_le (h : a + bs.length ≤ 4096) : m.store a bs = some (m.setBytes a bs) :=
  (Memory.store_eq_some_iff ..).2 ⟨.inr h, rfl⟩

theorem Memory.store_of_lt (hb : bs.length ≠ 0) (h : 4096 < a + bs.length) : m.store a bs = none :=
  (Memory.store_eq_none_iff ..).2 ⟨hb, h⟩

theorem Memory.load_of_le {n : Nat} (h : n = 0 ∨ a + n ≤ 4096) :
    m.load a n = some ((List.range n).map fun k => m.byteAt (a + k)) :=
  (Memory.load_eq_some_iff ..).2 ⟨h, rfl⟩

theorem Memory.load_of_lt {n : Nat} (hn : n ≠ 0) (h : 4096 < a + n) : m.load a n = none :=
  (Memory.load_eq_none_iff ..).2 ⟨hn, h⟩

end

theorem State.withMem_sameOutsideMemory (s : State) (m : Memory) : SameOutsideMemory s { s with mem := m } :=
  ⟨rfl, rfl, rfl, ⟨rfl, rfl⟩, ⟨rfl, rfl⟩, ⟨rfl, rfl, rfl, rfl⟩, rfl⟩

theorem State.withRegs_sameOutsideRegs (s : State) (v : Vector Byte 16) : SameOutsideRegs s { s with v := v } :=
  ⟨fun _ => rfl, rfl, rfl, ⟨rfl, rfl⟩, ⟨rfl, rfl⟩, ⟨rfl, rfl, rfl, rfl⟩, rfl⟩

theorem State.setRegBlock_sameOutsideRegs (s : State) (bs : List Byte) : SameOutsideRegs s (s.setRegBlock bs) :=
  s.withRegs_sameOutsideRegs _

/-! ## Glyph address and decimal digits -/

/-- Five times a byte does not wrap in 16 bits (R142). -/
theorem toNat_glyphAddress (b : Byte) : (glyphAddress b).toNat = 5 * b.toNat := by
  have hb := b.isLt
  rw [glyphAddress, BitVec.toNat_mul, toNat_wideReg, show (5 : Word).toNat = 5 from rfl]
  omega

/-- Settles O36: one write of I. -/
theorem glyphAddressIsFiveTimesVx : Obligations.GlyphAddressIsFiveTimesVx :=
  fun x s => ⟨_, rfl, toNat_glyphAddress (s.reg x), s.setI_sameOutsideI _⟩

/-- A decimal digit of a byte fits in a byte. -/
theorem toNat_ofNat_digit {d : Nat} (h : d < 256) : (BitVec.ofNat 8 d).toNat = d := by
  rw [BitVec.toNat_ofNat, Nat.mod_eq_of_lt h]

/-- Settles O37: the digits are a run of three bytes, which ends inside memory. -/
theorem decimalDigitsAreStored : Obligations.DecimalDigitsAreStored := by
  intro x s hm hI
  have hb := (s.reg x).isLt
  have hend : s.i.toNat + (decimalDigits (s.reg x)).length ≤ 4096 := Nat.succ_le_succ hI
  have hread := fun k (hk : k < 3) => Memory.byteAt_setBytes_inside (decimalDigits (s.reg x)) k hm hend hk
  refine ⟨_, exec_bcd_of_store (s.mem.store_of_le hend), Memory.wf_setBytes _ hm hend, ?hundreds, ?tens, ?ones, ?kept,
    s.withMem_sameOutsideMemory _⟩
  case hundreds => exact (congrArg BitVec.toNat (hread 0 (by decide))).trans (toNat_ofNat_digit (by omega))
  case tens => exact (congrArg BitVec.toNat (hread 1 (by decide))).trans (toNat_ofNat_digit (by omega))
  case ones => exact (congrArg BitVec.toNat (hread 2 (by decide))).trans (toNat_ofNat_digit (by omega))
  case kept => exact fun a ha => Memory.byteAt_setBytes_outside s.mem _ (ha.imp_right Nat.succ_le_of_lt)

/-! ## The register block -/

/-- Settles O38: the registers are a run of x + 1 bytes, which ends inside memory. -/
theorem registerBlockIsStored : Obligations.RegisterBlockIsStored := by
  intro x s hm hI
  have hlen : (s.regBlock x).length = x.val + 1 := s.length_regBlock x
  have hend : s.i.toNat + (s.regBlock x).length ≤ 4096 := by omega
  refine ⟨_, exec_storeRegs_of_store (s.mem.store_of_le hend), Memory.wf_setBytes _ hm hend, fun k hk => ?stored,
    fun a ha => ?kept, s.withMem_sameOutsideMemory _⟩
  case stored =>
    have hlt : k.val < (s.regBlock x).length := hlen ▸ Nat.lt_succ_of_le hk
    exact (Memory.byteAt_setBytes_inside _ k.val hm hend hlt).trans (s.getD_regBlock x k hk)
  case kept => exact Memory.byteAt_setBytes_outside s.mem (a := s.i.toNat) _ (by omega)

/-- Settles O39: register k is given the k-th byte loaded, if there is one. -/
theorem registerBlockIsLoaded : Obligations.RegisterBlockIsLoaded := by
  intro x s hI
  have hload := s.mem.load_of_le (a := s.i.toNat) (n := x.val + 1) (.inr (Nat.succ_le_succ hI))
  refine ⟨_, exec_loadRegs_of_load hload, fun k hk => ?loaded, fun k hk => ?kept, s.setRegBlock_sameOutsideRegs _⟩
  case loaded => rw [State.reg_setRegBlock, Memory.getD_of_load hload, if_pos (Nat.lt_succ_of_le hk)]
  case kept =>
    have hge : ¬ k.val < x.val + 1 := fun h => hk (Nat.le_of_lt_succ h)
    rw [State.reg_setRegBlock, Memory.getD_of_load hload, if_neg hge]

/-- Settles O40: what is loaded at I + k is what was stored there, and I has not moved. -/
theorem storedBlockLoadsBack : Obligations.StoredBlockLoadsBack := by
  intro x s v hm hI
  obtain ⟨t, ht, -, hstored, -, -, hti, -⟩ := registerBlockIsStored x s hm hI
  obtain ⟨u, hu, hloaded, hkept, -⟩ := registerBlockIsLoaded x { t with v := v } (hti ▸ hI)
  refine ⟨t, u, ht, hu, fun k hk => ?_, fun k hk => hkept k (not_le_of_gt hk)⟩
  rw [hloaded k hk, ← hstored k hk, ← hti]

/-- Settles O41: each of the four loads or stores gives nothing beyond its range. -/
theorem accessBeyondMemoryIsFatal : Obligations.AccessBeyondMemoryIsFatal := by
  intro x y n s
  refine ⟨fun hn h => ?drw, fun h => ?bcd, fun h => ⟨?storeRegs, ?loadRegs⟩⟩
  case drw => exact exec_drw_of_none (s.mem.load_of_lt hn.ne' (a := s.i.toNat) (by omega))
  case bcd => exact exec_bcd_of_none (s.mem.store_of_lt (Nat.succ_ne_zero 2) (Nat.succ_lt_succ h))
  case storeRegs =>
    have hlen : (s.regBlock x).length = x.val + 1 := s.length_regBlock x
    exact exec_storeRegs_of_none (s.mem.store_of_lt (a := s.i.toNat) (by omega) (by omega))
  case loadRegs => exact exec_loadRegs_of_none (s.mem.load_of_lt (Nat.succ_ne_zero _) (Nat.succ_lt_succ h))

/-- Settles O42: the fetch reads the two addresses at which V0 and V1 were stored. -/
theorem storedBytesAreFetchedNext : Obligations.StoredBytesAreFetchedNext := by
  intro x s hm hx hI hpc
  obtain ⟨t, ht, -, hstored, -, -, -, htpc, -⟩ := registerBlockIsStored x s hm hI
  have hx' : 1 ≤ x.val := hx
  have hat : t.pc.toNat = s.i.toNat := by rw [htpc, hpc]
  have hin : s.i.toNat + 2 ≤ Config.memSize := by
    rw [Config.memSize]
    omega
  have hV0 : t.mem.byteAt s.i.toNat = s.reg 0 := hstored 0 (Fin.zero_le x)
  have hV1 : t.mem.byteAt (s.i.toNat + 1) = s.reg 1 := hstored 1 hx
  refine ⟨t, ht, ?_⟩
  rw [State.fetch_eq, hat, if_pos hin, hV0, hV1]

/-! ## Drawing -/

section
variable {s t : State} {x y : Reg} {n : Nat}

theorem State.load_sprite (h : n = 0 ∨ s.i.toNat + n - 1 ≤ 4095) : s.mem.load s.base n = some (s.sprite n) :=
  s.mem.load_of_le (by rw [State.base]; omega)

/-- What a drawing leaves of the state. -/
theorem State.drawn_frame (s : State) (d : Drawing) :
    SameRegsBut (· = 15) s (s.drawn d) ∧ SameMemory s (s.drawn d) ∧ (s.drawn d).i = s.i ∧ (s.drawn d).pc = s.pc ∧
      SameStack s (s.drawn d) ∧ SameTimers s (s.drawn d) ∧ (s.drawn d).key = s.key ∧ (s.drawn d).run = s.run ∧
      (s.drawn d).fault = s.fault ∧ (s.drawn d).draws = s.draws :=
  ⟨fun _ hr => (State.reg_setFlag _ _ _).trans (if_neg hr), fun _ => rfl, rfl, rfl, ⟨rfl, rfl⟩, ⟨rfl, rfl⟩, rfl, rfl,
    rfl, rfl⟩

theorem State.drawn_reg_VF (s : State) (d : Drawing) : (s.drawn d).reg 15 = if d.collision then 1 else 0 :=
  (State.reg_setFlag _ _ _).trans (if_pos rfl)

theorem State.drawn_reg_VF_eq_one_iff (s : State) (d : Drawing) : (s.drawn d).reg 15 = 1 ↔ d.collision = true := by
  rw [State.drawn_reg_VF]
  cases d.collision <;> decide

/-- A drawn pixel is a matter of memory, I, Vx and Vy. -/
theorem State.drawnPixel_congr (hmem : SameMemory s t) (hi : t.i = s.i) (hx : t.reg x = s.reg x)
    (hy : t.reg y = s.reg y) (c r : Nat) : t.drawnPixel x y n c r = s.drawnPixel x y n c r := by
  have hsprite : t.sprite n = s.sprite n := List.map_congr_left fun k _ => by rw [hi, hmem]
  rw [State.drawnPixel, hsprite, hx, hy, State.drawnPixel]

end

/-- Settles O45: the sprite read from memory is drawn by the law of `drawRows`, and its collision written to VF. -/
theorem drawTogglesVisiblePixels : Obligations.DrawTogglesVisiblePixels := by
  intro x y n s h
  obtain ⟨hcell, hcollision⟩ := drawRows_spec (spriteCol (s.reg x)) (s.sprite n) (spriteRow (s.reg y))
    { fb := s.fb, collision := false }
  refine ⟨_, exec_drw_of_load (State.load_sprite h), fun c hc r hr => hcell c r hc hr, ?flag, ?hit, s.drawn_frame _⟩
  case flag =>
    rw [State.drawn_reg_VF]
    exact flag_eq_zero_or_one _
  case hit =>
    rw [State.drawn_reg_VF_eq_one_iff]
    exact hcollision.trans (or_iff_right Bool.false_ne_true)

/-- Settles O46: the second drawing has the pixels of the first, so that each cell is toggled twice; it hits a set cell
where the first has set one. -/
theorem drawTwiceRestoresFramebuffer : Obligations.DrawTwiceRestoresFramebuffer := by
  intro x y n s hx hy h
  obtain ⟨t, ht, htcell, -, -, htreg, htmem, hti, -⟩ := drawTogglesVisiblePixels x y n s h
  have hpixel := State.drawnPixel_congr (n := n) htmem hti (htreg x hx) (htreg y hy)
  obtain ⟨u, hu, hucell, -, huflag, -⟩ := drawTogglesVisiblePixels x y n t (hti ▸ h)
  refine ⟨t, u, ht, hu, Framebuffer.ext_cells fun c hc r hr => ?restored, huflag.trans ?hit⟩
  case restored => rw [hucell c hc r hr, htcell c hc r hr, hpixel, Bool.xor_assoc, Bool.xor_self, Bool.xor_false]
  case hit =>
    have hset : ∀ c ≤ 63, ∀ r ≤ 31, s.drawnPixel x y n c r = true →
        (Framebuffer.cell t.fb c r = true ↔ Framebuffer.cell s.fb c r = false) := by
      intro c hc r hr hp
      rw [htcell c hc r hr, hp, Bool.xor_true, Bool.not_eq_true']
    simp only [hpixel]
    constructor
    · rintro ⟨c, hc, r, hr, hp, hcell⟩
      exact ⟨c, hc, r, hr, hp, (hset c hc r hr hp).1 hcell⟩
    · rintro ⟨c, hc, r, hr, hp, hcell⟩
      exact ⟨c, hc, r, hr, hp, (hset c hc r hr hp).2 hcell⟩

end Sys2Proof.Machine
end
